-- ==== Sys2Proof/Word.lean ====
section
/-! DEFINITION. The two data widths of the block: a byte is 8 bits and a word is 32 bits, both unsigned
(spec/00_scope.md R7, R8; `BYTE_BITS` and `WORD_BYTES` of R6). Addresses and sizes are naturals, as R10 says. -/

namespace Sys2Proof

/-- A byte: `0 .. 255` (R8). -/
abbrev Byte := BitVec 8

/-- A word: `0 .. 2^32 - 1`, four bytes (R7, `WORD_BYTES = 4` of R6). -/
abbrev Word := BitVec 32

end Sys2Proof
end

