-- ==== Sys2Proof/Syntax.lean ====
section
/-! DEFINITION. The requests of the block: one constructor per row of spec/opcode_table.json (R83). This is the
abstract syntax of a script line of R88. -/

namespace Sys2Proof

/-- A request (R83, R102 to R106). An address is a natural below `2^ADDR_W` (`Instr.WellFormed`). The fields a
command ignores (R84) are no part of it. -/
inductive Instr where
  /-- `LEN`: the size of the root's address space (R102). -/
  | len
  /-- `RB addr`: read one byte (R103). -/
  | rb (addr : Nat)
  /-- `WB addr, byte`: write one byte (R104). -/
  | wb (addr : Nat) (byte : Byte)
  /-- `RW addr`: read one 32-bit word (R105). -/
  | rw (addr : Nat)
  /-- `WW addr, word`: write one 32-bit word (R106). -/
  | ww (addr : Nat) (word : Word)
deriving DecidableEq, Repr

end Sys2Proof
end

