-- ==== Sys2Proof/WellFormed.lean ====
section
/-! DEFINITION. When a request can stand on a port whose address input is `ADDR_W` bits wide (R81, R84). -/

namespace Sys2Proof

/-- An address the port can carry: `0 .. 2^ADDR_W - 1` (R84). -/
abbrev AddrFits (addrW addr : Nat) : Prop := addr < 2 ^ addrW

/-- A request the port can carry. The byte of `WB` and the word of `WW` are in range by their types; `LEN` has no
operand (R84). -/
abbrev Instr.WellFormed (addrW : Nat) (i : Instr) : Prop :=
  match i with
  | .len => True
  | .rb addr => AddrFits addrW addr
  | .wb addr _ => AddrFits addrW addr
  | .rw addr => AddrFits addrW addr
  | .ww addr _ => AddrFits addrW addr

end Sys2Proof
end

