-- ==== Sys2Proof/Decode.lean ====
section
/-! DEFINITION. The request format `REQ = {op, addr, wdata}` (R81), the command codes (R83), the decoder (R84 to
R86), total on every word and rejecting by name, and the encoder. -/

namespace Sys2Proof

/-- The fields of format `REQ` (R81). -/
structure Req where
  /-- The command code. -/
  op : BitVec 3
  /-- The unsigned byte address, below `2^ADDR_W`. -/
  addr : Nat
  /-- The write data. -/
  wdata : Word
deriving DecidableEq, Repr

/-- Why the decoder has no request for a word (the request refusals of R207). -/
inductive DecodeRefusal where
  /-- R85: the command code is `0b101`, `0b110` or `0b111`. -/
  | reservedCommand
  /-- R84: a `WB` with `wdata[31:8] != 0`. -/
  | byteValueTooWide
deriving DecidableEq, Repr

/-- The packed word of `ADDR_W + 35` bits: `op` in bits `[ADDR_W+34 : ADDR_W+32]`, `addr` in
`[ADDR_W+31 : 32]`, `wdata` in `[31:0]` (R81). -/
def Req.toWord (addrW : Nat) (r : Req) : Nat :=
  r.op.toNat * 2 ^ (addrW + 32) + r.addr % 2 ^ addrW * 2 ^ 32 + r.wdata.toNat

/-- The fields of a packed word (R81). Bits from `ADDR_W + 35` up are no part of the word. -/
def Req.ofWord (addrW w : Nat) : Req where
  op := BitVec.ofNat 3 (w / 2 ^ (addrW + 32))
  addr := w / 2 ^ 32 % 2 ^ addrW
  wdata := BitVec.ofNat 32 w

/-- The command code of a request (R83). -/
def opcode : Instr → BitVec 3
  | .len => 0b000#3
  | .rb _ => 0b001#3
  | .wb _ _ => 0b010#3
  | .rw _ => 0b011#3
  | .ww _ _ => 0b100#3

/-- The command map of R83 with the operand rules of R84: `LEN` ignores `addr` and `wdata`, `RB` and `RW` ignore
`wdata`, and `WB` takes `wdata[7:0]` only where `wdata[31:8]` is 0. -/
def decodeReq (r : Req) : Except DecodeRefusal Instr :=
  match r.op.toNat with
  | 0 => .ok .len
  | 1 => .ok (.rb r.addr)
  | 2 =>
    if r.wdata.extractLsb' 8 24 = 0#24 then .ok (.wb r.addr (r.wdata.extractLsb' 0 8))
    else .error .byteValueTooWide
  | 3 => .ok (.rw r.addr)
  | 4 => .ok (.ww r.addr r.wdata)
  | _ => .error .reservedCommand

/-- Decodes a packed request word for a port of `addrW` address bits (R86: every word is a request or a refusal). -/
def decode (addrW w : Nat) : Except DecodeRefusal Instr :=
  decodeReq (Req.ofWord addrW w)

/-- The fields a request puts on the port; the ignored ones are 0 (R84, R88). -/
def requestOf : Instr → Req
  | .len => ⟨opcode .len, 0, 0#32⟩
  | .rb addr => ⟨opcode (.rb addr), addr, 0#32⟩
  | .wb addr byte => ⟨opcode (.wb addr byte), addr, byte.setWidth 32⟩
  | .rw addr => ⟨opcode (.rw addr), addr, 0#32⟩
  | .ww addr word => ⟨opcode (.ww addr word), addr, word⟩

/-- The packed word of a request (R81). -/
def encode (addrW : Nat) (i : Instr) : Nat :=
  (requestOf i).toWord addrW

/-- The address width for which spec/opcode_table.json lays its words out. -/
def tableAddrW : Nat := 16

/-- The request fields of a word laid out as spec/opcode_table.json lays it out, of which `nbits` bits are given
and every bit above them is 0. -/
def tableReq (nbits w : Nat) : Req :=
  Req.ofWord tableAddrW (w % 2 ^ nbits)

/-- The request the decoder reads from a word of the opcode table (fixed by the host's interface). -/
def decodeTableWord (nbits w : Nat) : Option Instr :=
  (decodeReq (tableReq nbits w)).toOption

end Sys2Proof
end

