-- ==== Sys2Proof/Config.lean ====
section
/-! DEFINITION. What an implementation of the block fixes, and the one value the spec leaves free.

* `Desc`: a configuration as the requester writes it (R89, R130, R150, R170), before any check.
* `Comp`: the configuration of a built component tree (R23 to R26), after every check.
* `Params`: the numeric parameters of construction (R6).
* `ConfigError`: the construction errors and configuration refusals (R201 to R204, R207).
* `Config.ramDraw`: the initial contents of RAM bytes, a free value (R36, R152). -/

namespace Sys2Proof

/-- The byte order of a component (R55); there is no default (decision D6). -/
inductive ByteOrder where
  | big
  | little
deriving DecidableEq, Repr

/-- The content a ROM is built from: bytes or 32-bit words, exactly one of the two (R130).
A word is a natural here, so that the check `WordValueOutOfRange` of R131 has something to check. -/
inductive Content where
  | bytes (bs : List Byte)
  | words (ws : List Nat)
deriving DecidableEq, Repr

mutual

/-- A configuration before construction (R89). `id` says which storage object a leaf is: two leaves with one
`id` are one object bound twice (R30). -/
inductive Desc where
  | rom (id : Nat) (content : Content) (size : Option Nat) (order : ByteOrder) (padding : Option (List Byte))
  | ram (id : Nat) (size : Option Nat) (order : ByteOrder)
  | map (order : ByteOrder) (mapping : Bindings)
deriving DecidableEq, Repr

/-- The bindings of a map in the order its constructor receives them (R170). A base is an integer, so that
the check `NegativeBase` of R172 has something to check. -/
inductive Bindings where
  | nil
  | cons (base : Int) (child : Desc) (rest : Bindings)
deriving DecidableEq, Repr

end

mutual

/-- A built component (R23): its configuration fields that are not computed from others. A ROM's `SIZE` is the
length of its image (R24), a map's is computed from its regions (R26, R176), and `MASK` is `SIZE - 1` (R27). -/
inductive Comp where
  | rom (id : Nat) (order : ByteOrder) (image : List Byte)
  | ram (id : Nat) (order : ByteOrder) (size : Nat)
  | map (order : ByteOrder) (regions : Regions)
deriving DecidableEq, Repr

/-- The regions of a built map in list order: `REGION[j].BASE` and `REGION[j].CHILD` (R26);
`REGION[j].SIZE` is the child's size. -/
inductive Regions where
  | nil
  | cons (base : Nat) (child : Comp) (rest : Regions)
deriving DecidableEq, Repr

end

/-- The numeric parameters of R6. The two defaults are the document's values, which the spec keeps as
parameters (decision D17). -/
structure Params where
  /-- `ADDR_W`, the width in bits of the root port's address (R6, R53). -/
  addrW : Nat
  /-- `RAM_DEFAULT_SIZE` (R6, R150). -/
  ramDefaultSize : Nat := 256
  /-- `ROM_DEFAULT_PAD` (R6, R136). -/
  romDefaultPad : List Byte := [0xFF#8]
deriving DecidableEq, Repr

/-- Why a configuration has no model: the four construction errors of the source (R201 to R204) and the five
configuration refusals of the spec (R207). Raised by `construct` only; safe, since no state exists then. -/
inductive ConfigError where
  /-- R201: a size is not a positive power of two. -/
  | invalidSize
  /-- R202: a base is not aligned to its child's size. -/
  | invalidAlignment
  /-- R203: two regions of one map intersect. -/
  | overlappingRegion
  /-- R204: a ROM's explicit size is smaller than its content. -/
  | contentTooLarge
  /-- R30: one ROM or RAM is bound in two places. -/
  | componentAliased
  /-- R172: a map base is below 0. -/
  | negativeBase
  /-- R136: a ROM's padding pattern is empty. -/
  | emptyPadding
  /-- R131: a ROM content word does not fit 32 bits. -/
  | wordValueOutOfRange
  /-- R53: the root does not fit the port's address width. -/
  | addressWidthTooSmall
deriving DecidableEq, Repr

/-- The free draw of one RAM byte at construction (R36, R152): what the byte at storage key `key` holds in the
`construction`-th construction before anything writes it. The spec leaves it unspecified and stable (R39), so
this constant has no body: every claim holds whatever it is (notes/assumptions/2.md). -/
opaque Config.ramDraw (construction key : Nat) : Byte

end Sys2Proof
end

