-- ==== Sys2Proof/Machine/Decoder.lean ====
section
/-! DEFINITION. The flat address decoder (spec/43_memory_map.md): sizes and masks, the region guard, the router
with its local-offset calculator, and the wraparound masking of every component (R51). -/

namespace Sys2Proof

/-- `isPow2` of R12. -/
def isPow2 (n : Nat) : Bool := decide (1 ≤ n) && n &&& (n - 1) == 0

/-- `nextPow2` of R12: the smallest power of two that is at least `n`; 1 for 0 and 1. -/
def nextPow2 (n : Nat) : Nat := if n ≤ 1 then 1 else 2 ^ (Nat.log2 (n - 1) + 1)

/-- `ORDER(c)` (R24 to R26). -/
def Comp.order : Comp → ByteOrder
  | .rom _ o _ => o
  | .ram _ o _ => o
  | .map o _ => o

mutual

/-- `SIZE(c)`: the image's length for a ROM, the configured size for a RAM, and for a map the next power of two
of the highest region end, or 1 without regions (R24 to R26, R176, R177). -/
def Comp.size : Comp → Nat
  | .rom _ _ image => image.length
  | .ram _ _ size => size
  | .map _ rs => nextPow2 rs.endAddr

/-- `END` of R176: the maximum of `BASE_j + SIZE_j`; 0 without regions. -/
def Regions.endAddr : Regions → Nat
  | .nil => 0
  | .cons base child rest => max (base + child.size) rest.endAddr

end

/-- `MASK(c) = SIZE(c) - 1` (R27). -/
def Comp.mask (c : Comp) : Nat := c.size - 1

/-- The region guard of R178: `BASE_j <= m < BASE_j + SIZE_j`. -/
def hits (base size m : Nat) : Bool := decide (base ≤ m) && decide (m < base + size)

/-- Where a byte access ends after routing: a byte of a ROM image, a byte of a RAM's storage, or a hole of the map
at which routing stops (R183). -/
inductive Target where
  /-- Byte `index` of ROM `id`, whose image holds `byte` there (R138). -/
  | rom (id index : Nat) (byte : Byte)
  /-- Byte `index` of the storage of RAM `id` (R153). -/
  | ram (id index : Nat)
  /-- A hole: `mapAddr` is the masked address in the space of the map at which routing stops (R183). -/
  | hole (mapAddr : Nat)
deriving DecidableEq, Repr

/-- The access ends in a hole (R183). -/
def Target.isHole : Target → Bool
  | .rom _ _ _ => false
  | .ram _ _ => false
  | .hole _ => true

mutual

/-- The target of a byte access to a component: each component masks by its own mask (R51), a map then routes and
passes on the local offset (R181, R182), and a nested map does the same with no special case (R184). -/
def Comp.locate : Comp → Nat → Target
  | .rom id _ image, a =>
    .rom id (a &&& (image.length - 1)) (image.getD (a &&& (image.length - 1)) 0#8)
  | .ram id _ size, a => .ram id (a &&& (size - 1))
  | .map _ rs, a => rs.locate (a &&& (nextPow2 rs.endAddr - 1))

/-- Routes the masked map address `m`: the region that hits gets `m - BASE_j` (R180); no region is a hole (R183). -/
def Regions.locate : Regions → Nat → Target
  | .nil, m => .hole m
  | .cons base child rest, m =>
    if hits base child.size m then child.locate (m - base) else rest.locate m

end

/-- `route` of R179: the base and the child of the region that hits `m`, or none. -/
def Regions.route : Regions → Nat → Option (Nat × Comp)
  | .nil, _ => none
  | .cons base child rest, m => if hits base child.size m then some (base, child) else rest.route m

/-- The regions as a list of base and child, in list order (R26). -/
def Regions.toList : Regions → List (Nat × Comp)
  | .nil => []
  | .cons base child rest => (base, child) :: rest.toList

mutual

/-- The storage objects of a tree, ROMs and RAMs, in list order (R30). -/
def Comp.leafIds : Comp → List Nat
  | .rom id _ _ => [id]
  | .ram id _ _ => [id]
  | .map _ rs => rs.leafIds

/-- The storage objects below the regions of a map. -/
def Regions.leafIds : Regions → List Nat
  | .nil => []
  | .cons _ child rest => child.leafIds ++ rest.leafIds

end

mutual

/-- The RAMs of a tree with their sizes, in list order (R31). -/
def Comp.rams : Comp → List (Nat × Nat)
  | .rom _ _ _ => []
  | .ram id _ size => [(id, size)]
  | .map _ rs => rs.rams

/-- The RAMs below the regions of a map. -/
def Regions.rams : Regions → List (Nat × Nat)
  | .nil => []
  | .cons _ child rest => child.rams ++ rest.rams

end

/-- Two half-open intervals given by base and size intersect (R174). -/
def overlaps (base size base' size' : Nat) : Bool :=
  decide (base < base' + size') && decide (base' < base + size)

mutual

/-- What construction has checked of a node and of all nodes below it: sizes are powers of two (R24, R25), every
base is a multiple of its child's size (R173), and the regions of a map are pairwise disjoint (R174). -/
def Comp.checked : Comp → Bool
  | .rom _ _ image => isPow2 image.length
  | .ram _ _ size => isPow2 size
  | .map _ rs => rs.checked

/-- The checks for every region of a map, the disjointness from the regions after it included. -/
def Regions.checked : Regions → Bool
  | .nil => true
  | .cons base child rest =>
    child.checked && base &&& (child.size - 1) == 0 &&
      rest.toList.all (fun r => !overlaps base child.size r.1 r.2.size) && rest.checked

end

/-- An admitted component tree: every construction check holds and no storage object stands twice (R30). -/
abbrev Comp.Valid (c : Comp) : Prop := c.checked = true ∧ c.leafIds.Nodup

end Sys2Proof
end

