-- ==== Sys2Proof/Machine/State.lean ====
section
/-! DEFINITION. The state of the block and its state after reset (spec/10_state.md). -/

namespace Sys2Proof.Machine

/-- The storage of every RAM (R31): byte `i` of RAM `r` stands at one storage key (`ramKey` in Ops.lean). A list of
key and byte, keys strictly rising, no entry equal to the byte's initial draw (`Memory.Wf`). -/
abbrev Memory := List Host.Cell

/-- A response on the root port, format `RSP` (R82). -/
structure Rsp where
  /-- `0b00` is OK, `0b01` is UnmappedAddress, the other two are never produced. -/
  status : BitVec 2
  /-- The byte or word read. -/
  rdata : Word
  /-- The size that `LEN` answers, below `2^(ADDR_W+1)`. -/
  rlen : Nat
deriving DecidableEq, Repr

/-- The runtime errors of the block: one (R205). -/
inductive FaultCode where
  /-- `UNMAPPED_ADDRESS`, number 1 (`faultNumber`). -/
  | unmappedAddress
deriving DecidableEq, Repr

/-- The fault record (R34, R209). -/
structure FaultRecord where
  /-- The error. -/
  code : FaultCode
  /-- The request's command code. -/
  op : BitVec 3
  /-- The request's address, unmasked. -/
  reqAddr : Nat
  /-- The word offset of the failing byte; 0 for `RB` and `WB`. -/
  byteIndex : Fin 4
  /-- The masked address in the failing map's own space. -/
  mapAddr : Nat
deriving DecidableEq, Repr

/-- What `raise UnmappedAddress(info)` carries (R13, R107): the word offset and the failing map's masked address. -/
structure Raise where
  byteIndex : Fin 4
  mapAddr : Nat
deriving DecidableEq, Repr

/-- Why a step stops with a fault. Every constructor is raised by `step` alone; no meaning of a request raises one,
since an `UnmappedAddress` error is a next state with `FAULT` set (R209, R210). -/
inductive Fault where
  /-- Raised by `step` where `FAULT` is set: the run is over and there is no further step (R110, R210). Safe. -/
  | runFaulted
  /-- Raised by `step` where the requester has issued no further request: the block does nothing on its own (R21),
  and the run has ended (R249). Safe. -/
  | noRequest
deriving DecidableEq, Repr

/-- Why a step is refused. -/
inductive Refusal where
  /-- Raised by an arm of `exec` whose request has no meaning yet. Safe. No arm is left so. -/
  | notModelled (mnemonic : String)
  /-- Raised by `step` where `REFUSED` is set: the run is over and there is no further step (R35, R110). Safe. -/
  | runRefused
deriving DecidableEq, Repr

/-- The state (spec/10_state.md). The block has no registers, program counter or flags (R20 to R22). -/
structure State where
  /-- The configuration tree with the ROM images (R23 to R26, R32); no request changes it (R28). -/
  root : Comp
  /-- `ADDR_W` (R6, R53); no request changes it. -/
  addrW : Nat
  /-- The model's own: which construction this is, the index of its draws (R240; notes/assumptions/2.md). -/
  construction : Nat
  /-- `RAM[r][i]` for every RAM (R31). -/
  ram : Memory
  /-- `FAULT` (R34). -/
  fault : Option FaultRecord
  /-- `REFUSED` (R35). -/
  refused : Bool
  /-- The root port's input: the packed requests issued and not stepped yet, the next one first (R80, R249). -/
  requests : List Nat
  /-- The root port's output: the responses given, the oldest first (R80, R249). -/
  responses : List Rsp
deriving DecidableEq, Repr

/-- The configuration of `State.reset`: configuration M2 of spec/95_test_vectors.md P2, a little-endian map with a
RAM of four bytes at 0, a ROM of four bytes at 8, and holes. DESIGN CHOICE (notes/assumptions/1.md): the spec
takes the configuration as an argument; `construct` gives the state after reset for every other one. -/
def resetRoot : Comp :=
  .map .little
    (.cons 0 (.ram 0 .big 4)
      (.cons 8 (.rom 1 .big [0xDE#8, 0xAD#8, 0xBE#8, 0xEF#8])
        .nil))

/-- The state construction gives (R36, R240): every RAM byte holds its draw (nothing is listed), `FAULT = none`,
`REFUSED = false`, no request issued and no response given. `ADDR_W = 16` is the width of the spec's test vectors
(DESIGN CHOICE, notes/assumptions/1.md). -/
def State.reset : State where
  root := resetRoot
  addrW := 16
  construction := 0
  ram := []
  fault := none
  refused := false
  requests := []
  responses := []

end Sys2Proof.Machine
end

