-- ==== Sys2Proof/Machine/Flags.lean ====
section
/-! DEFINITION. The block has no status flags (R22): the outcome of a request is its response. These are the forms
a response takes (R82) and the number of the one fault code (R205). -/

namespace Sys2Proof.Machine

/-- `status = OK` (R82). -/
def statusOk : BitVec 2 := 0b00#2

/-- `status = UnmappedAddress` (R82, R205). -/
def statusUnmapped : BitVec 2 := 0b01#2

/-- The number of a fault code: `UNMAPPED_ADDRESS = 1` (R205). -/
def faultNumber : FaultCode → Nat
  | .unmappedAddress => 1

/-- The response of `RB` and `RW`: the data read (R103, R105). -/
def rspData (v : Word) : Rsp := ⟨statusOk, v, 0⟩

/-- The response of `WB` and `WW`: nothing but OK (R104, R106). -/
def rspDone : Rsp := ⟨statusOk, 0#32, 0⟩

/-- The response of `LEN` (R102). -/
def rspLength (n : Nat) : Rsp := ⟨statusOk, 0#32, n⟩

/-- The response of a request that raises `UnmappedAddress` (R110). -/
def rspUnmapped : Rsp := ⟨statusUnmapped, 0#32, 0⟩

end Sys2Proof.Machine
end

