-- ==== Sys2Proof/Machine/Operands.lean ====
section
/-! DEFINITION. Operand forms of the word requests: the order bit (R29), the byte-order converter (R56, R57) and
the four byte addresses of a word (R54). There are no immediates and no other operand form (R84). -/

namespace Sys2Proof.Machine

/-- The byte at bits `[lo+7 : lo]` of a word (R11). -/
def byteAt (v : Word) (lo : Nat) : Byte := v.extractLsb' lo 8

/-- `ORDER` as a bit: `0 = big`, `1 = little` (R29). -/
def orderBit : ByteOrder → BitVec 1
  | .big => 0#1
  | .little => 1#1

/-- A byte at bits `[lo+7 : lo]` of a word of zeros (R10, R11). -/
def placed (b : Byte) (lo : Nat) : Word := b.setWidth 32 <<< lo

/-- `pack` of R56: the word whose byte at word offset `i` is `bi`. Under `big` the byte at the lowest address is
the most significant (PRESUMED, from general knowledge as R56 says: notes/assumptions/6.md). -/
def pack : ByteOrder → Byte → Byte → Byte → Byte → Word
  | .big, b0, b1, b2, b3 => placed b0 24 ||| placed b1 16 ||| placed b2 8 ||| placed b3 0
  | .little, b0, b1, b2, b3 => placed b3 24 ||| placed b2 16 ||| placed b1 8 ||| placed b0 0

/-- `unpack` of R57: the byte to be written at word offset `i`. -/
def unpack (o : ByteOrder) (v : Word) (i : Fin 4) : Byte :=
  match o with
  | .big => byteAt v (8 * (3 - i.val))
  | .little => byteAt v (8 * i.val)

/-- The four bytes of `unpack` with their word offsets, in the order in which they are written (R106). -/
def unpackList (o : ByteOrder) (v : Word) : List (Fin 4 × Byte) :=
  [(0, unpack o v 0), (1, unpack o v 1), (2, unpack o v 2), (3, unpack o v 3)]

/-- The address of the byte at word offset `i`: `a + i` modulo `2^ADDR_W` (R54). -/
def byteAddr (addrW a : Nat) (i : Fin 4) : Nat := (a + i.val) % 2 ^ addrW

end Sys2Proof.Machine
end

