-- ==== Sys2Proof/Machine/Ops.lean ====
section
/-! DEFINITION. The named operations over RAM storage and components that the requests share: the byte primitives
(R100, R101), the word adapter (R105, R106), the response, and the one error a request can take (R110, R209). -/

namespace Sys2Proof.Machine

/-! ## RAM storage -/

/-- The storage key of byte `i` of RAM `r`: a pairing that no two bytes share. -/
def ramKey (r i : Nat) : Nat := Nat.pair r i

/-- What an unlisted storage key reads as: the byte's draw (R36). -/
def Memory.unlisted (construction key : Nat) : Byte := Config.ramDraw construction key

/-- The listed byte at a key, if there is one. -/
def Memory.lookup : Memory → Nat → Option Byte
  | [], _ => none
  | (k, v) :: rest, key => if k = key then some v else Memory.lookup rest key

/-- Reads the byte at a key: the last one written, or the draw (R39). -/
def Memory.read (construction : Nat) (m : Memory) (key : Nat) : Byte :=
  (m.lookup key).getD (Memory.unlisted construction key)

/-- Removes the entry at a key. -/
def Memory.erase (m : Memory) (key : Nat) : Memory := m.filter (fun c => c.1 != key)

/-- Enters a byte at a key, in place of the entry there. -/
def Memory.insert : Memory → Nat → Byte → Memory
  | [], key, v => [(key, v)]
  | (k, w) :: rest, key, v =>
    if key < k then (key, v) :: (k, w) :: rest
    else if key = k then (key, v) :: rest
    else (k, w) :: Memory.insert rest key v

/-- Writes the byte at a key and keeps the canonical form: writing the draw removes the entry. -/
def Memory.write (construction : Nat) (m : Memory) (key : Nat) (v : Byte) : Memory :=
  if v = Memory.unlisted construction key then m.erase key else m.insert key v

/-- The canonical form: keys strictly rising and no entry equal to its draw. -/
abbrev Memory.Wf (construction : Nat) (m : Memory) : Prop :=
  (m.map Prod.fst).Pairwise (· < ·) ∧ ∀ c ∈ m, c.2 ≠ Memory.unlisted construction c.1

/-- `RAM_INIT(r, i)` of the construction the state comes from (R36, R152). -/
def State.ramInit (s : State) (r i : Nat) : Byte := Memory.unlisted s.construction (ramKey r i)

/-- `RAM[r][i]` (R31). -/
def State.ramByte (s : State) (r i : Nat) : Byte := s.ram.read s.construction (ramKey r i)

/-- `RAM[r][i] <- v` (R154). -/
def State.setRamByte (s : State) (r i : Nat) (v : Byte) : State :=
  { s with ram := s.ram.write s.construction (ramKey r i) v }

/-! ## Byte primitives -/

/-- `ReadByteC(c, a)` (R100): the ROM image byte (R138), the RAM byte (R153), or the error `UnmappedAddress` with
the failing map's masked address (R181, R183). It changes no state. -/
def readByteC (s : State) (c : Comp) (a : Nat) : Except Nat Byte :=
  match c.locate a with
  | .rom _ _ v => .ok v
  | .ram r i => .ok (s.ramByte r i)
  | .hole m => .error m

/-- `WriteByteC(c, a, v)` (R101): nothing for a ROM (R139), one storage byte for a RAM (R154), or the error
`UnmappedAddress` with nothing written (R182). -/
def writeByteC (s : State) (c : Comp) (a : Nat) (v : Byte) : Except Nat State :=
  match c.locate a with
  | .rom _ _ _ => .ok s
  | .ram r i => .ok (s.setRamByte r i v)
  | .hole m => .error m

/-! ## The word adapter -/

/-- The byte read at word offset `i`; an error carries the offset (R105, R107). -/
def readOffset (s : State) (c : Comp) (a : Nat) (i : Fin 4) : Except Raise Byte :=
  match readByteC s c (byteAddr s.addrW a i) with
  | .ok b => .ok b
  | .error m => .error ⟨i, m⟩

/-- `ReadWordC(c, a)` (R105): four byte reads in offset order, packed by the order of `c` alone (R58). The first
error ends it (R211). -/
def readWordC (s : State) (c : Comp) (a : Nat) : Except Raise Word :=
  match readOffset s c a 0 with
  | .error e => .error e
  | .ok b0 =>
    match readOffset s c a 1 with
    | .error e => .error e
    | .ok b1 =>
      match readOffset s c a 2 with
      | .error e => .error e
      | .ok b2 =>
        match readOffset s c a 3 with
        | .error e => .error e
        | .ok b3 => .ok (pack c.order b0 b1 b2 b3)

/-- Byte writes at word offsets, in list order. The first error ends it; the writes before it stay made
(R106, R211). -/
def writeOffsets (c : Comp) (a : Nat) : List (Fin 4 × Byte) → State → State × Option Raise
  | [], s => (s, none)
  | (i, b) :: rest, s =>
    match writeByteC s c (byteAddr s.addrW a i) b with
    | .error m => (s, some ⟨i, m⟩)
    | .ok s' => writeOffsets c a rest s'

/-- `WriteWordC(c, a, v)` (R106): the state after the byte writes made, and the error if there was one. -/
def writeWordC (s : State) (c : Comp) (a : Nat) (v : Word) : State × Option Raise :=
  writeOffsets c a (unpackList c.order v) s

/-! ## Responses, the error and the port -/

/-- Gives a response on the root port (R80). -/
def State.respond (s : State) (r : Rsp) : State := { s with responses := s.responses ++ [r] }

/-- The fault record of an error (R209). -/
def faultRecord (op : BitVec 3) (addr : Nat) (e : Raise) : FaultRecord :=
  ⟨.unmappedAddress, op, addr, e.byteIndex, e.mapAddr⟩

/-- Taking the error `UnmappedAddress` (R110, R205, R209): the fault record is set, unless an earlier error has set it
(R34: the first sets it and it is never cleared), and the response says so. Nothing else is saved and control goes
nowhere (R214); there is no return from it (R215). -/
def State.takeUnmapped (s : State) (op : BitVec 3) (addr : Nat) (e : Raise) : State :=
  { s with
    fault := some (s.fault.getD (faultRecord op addr e))
    responses := s.responses ++ [rspUnmapped] }

/-- Refusing a request (R85, R110): `REFUSED` is set, nothing else changes and there is no response. -/
def State.refuse (s : State) : State := { s with refused := true }

/-- The state whose port has given its next request to the step: the request leaves the input. -/
def State.dropRequest (s : State) : State := { s with requests := s.requests.tail }

/-- The requester issues further requests, after those not stepped yet (R249, R250). -/
def State.issue (s : State) (ws : List Nat) : State := { s with requests := s.requests ++ ws }

/-- Puts a request before all others on the port's input. -/
def State.issueNext (s : State) (r : Req) : State :=
  { s with requests := r.toWord s.addrW :: s.requests }

/-- What the port does before any request runs (R110): no step once the run is over, and none without a request. -/
inductive Port where
  /-- `FAULT` is set. -/
  | faulted
  /-- `REFUSED` is set. -/
  | refused
  /-- No request is waiting. -/
  | idle
  /-- The request word of this step. -/
  | request (w : Nat)
deriving DecidableEq, Repr

/-- The port's view of a state (R110). -/
def State.port (s : State) : Port :=
  match s.fault, s.refused, s.requests with
  | some _, _, _ => .faulted
  | none, true, _ => .refused
  | none, false, [] => .idle
  | none, false, w :: _ => .request w

end Sys2Proof.Machine
end

