-- ==== Sys2Proof/Machine/Requests.lean ====
section
/-! DEFINITION. The meanings of the five requests (spec/40_memory_contract.md, R102 to R106). Each completes with a
next state: with its own response, or with the error `UnmappedAddress` taken. -/

namespace Sys2Proof.Machine

/-- `LEN` (R102): the size of the root's address space; it never raises. -/
def execLen (s : State) : Host.Outcome State Fault Refusal :=
  .next (s.respond (rspLength s.root.size))

/-- `RB addr` (R103). -/
def execRb (addr : Nat) (s : State) : Host.Outcome State Fault Refusal :=
  match readByteC s s.root addr with
  | .ok b => .next (s.respond (rspData (b.setWidth 32)))
  | .error m => .next (s.takeUnmapped (opcode (.rb addr)) addr ⟨0, m⟩)

/-- `WB addr, byte` (R104). -/
def execWb (addr : Nat) (byte : Byte) (s : State) : Host.Outcome State Fault Refusal :=
  match writeByteC s s.root addr byte with
  | .ok s' => .next (s'.respond rspDone)
  | .error m => .next (s.takeUnmapped (opcode (.wb addr byte)) addr ⟨0, m⟩)

/-- `RW addr` (R105). -/
def execRw (addr : Nat) (s : State) : Host.Outcome State Fault Refusal :=
  match readWordC s s.root addr with
  | .ok w => .next (s.respond (rspData w))
  | .error e => .next (s.takeUnmapped (opcode (.rw addr)) addr e)

/-- `WW addr, word` (R106): on an error the bytes already written stay written. -/
def execWw (addr : Nat) (word : Word) (s : State) : Host.Outcome State Fault Refusal :=
  match writeWordC s s.root addr word with
  | (s', none) => .next (s'.respond rspDone)
  | (s', some e) => .next (s'.takeUnmapped (opcode (.ww addr word)) addr e)

end Sys2Proof.Machine
end

