-- ==== Sys2Proof/Machine/Dispatch.lean ====
section
/-! DEFINITION. One arm per request (R83, R110). -/

namespace Sys2Proof.Machine

def exec (i : Instr) (s : State) : Host.Outcome State Fault Refusal :=
  match i with
  | .len => Sys2Proof.Machine.execLen s
  | .rb addr => Sys2Proof.Machine.execRb addr s
  | .wb addr byte => Sys2Proof.Machine.execWb addr byte s
  | .rw addr => Sys2Proof.Machine.execRw addr s
  | .ww addr word => Sys2Proof.Machine.execWw addr word s

end Sys2Proof.Machine
end

