-- ==== Sys2Proof/Machine/Step.lean ====
section
/-! DEFINITION. The request step (R110). -/

namespace Sys2Proof.Machine

/-- One step (R110): nothing once the run is over; otherwise the next request leaves the port's input and runs, or is
refused and sets `REFUSED`. -/
def step (s : State) : Host.Outcome State Fault Refusal :=
  match s.port with
  | .faulted => .fault .runFaulted
  | .refused => .refused .runRefused
  | .idle => .fault .noRequest
  | .request w =>
    match decode s.addrW w with
    | .ok i => exec i s.dropRequest
    | .error _ => .next s.dropRequest.refuse

/-- `s` with a word of spec/opcode_table.json put on the port as the very next request, its fields repacked for the
state's own address width (fixed by the host's interface; notes/assumptions/4.md). -/
def State.withFetchWord (s : State) (nbits w : Nat) : State := s.issueNext (tableReq nbits w)

end Sys2Proof.Machine
end

