-- ==== Sys2Proof/Machine/Construct.lean ====
section
/-! DEFINITION. Construction, which is also reset (R240): a configuration is built bottom-up with every check of
spec/41_rom.md, 42_ram.md and 43_memory_map.md, in the order of R212, and gives the state after reset or the first
error. -/

namespace Sys2Proof.Machine

/-- The configuration codes of the four construction errors (R201 to R204); a refusal has none (R207). -/
def configCode : ConfigError → Option Nat
  | .invalidSize => some 1
  | .invalidAlignment => some 2
  | .overlappingRegion => some 3
  | .contentTooLarge => some 4
  | .componentAliased => none
  | .negativeBase => none
  | .emptyPadding => none
  | .wordValueOutOfRange => none
  | .addressWidthTooSmall => none

/-! ## ROM -/

/-- Some content word does not fit 32 bits (R131). -/
def contentOutOfRange : Content → Bool
  | .bytes _ => false
  | .words ws => ws.any (fun w => decide (2 ^ 32 ≤ w))

/-- `CB`: the content as bytes, each word split by the ROM's own order (R131). -/
def contentBytes (order : ByteOrder) : Content → List Byte
  | .bytes bs => bs
  | .words ws => ws.flatMap (fun w => (unpackList order (BitVec.ofNat 32 w)).map Prod.snd)

/-- The image of R135: the content, then the padding pattern at the phase of the absolute byte offset. -/
def romImage (cb pad : List Byte) (size : Nat) : List Byte :=
  (List.range size).map (fun i =>
    if i < cb.length then cb.getD i 0#8 else pad.getD (i % pad.length) 0#8)

/-- Builds a ROM (R130 to R137), its checks in the order of R137. -/
def buildRom (p : Params) (id : Nat) (content : Content) (size : Option Nat) (order : ByteOrder)
    (padding : Option (List Byte)) : Except ConfigError Comp :=
  let pad := padding.getD p.romDefaultPad
  let cb := contentBytes order content
  if pad.isEmpty then .error .emptyPadding
  else if contentOutOfRange content then .error .wordValueOutOfRange
  else
    match size with
    | none => .ok (.rom id order (romImage cb pad (nextPow2 cb.length)))
    | some n =>
      if !isPow2 n then .error .invalidSize
      else if n < cb.length then .error .contentTooLarge
      else .ok (.rom id order (romImage cb pad n))

/-! ## RAM -/

/-- Builds a RAM (R150, R151). -/
def buildRam (p : Params) (id : Nat) (size : Option Nat) (order : ByteOrder) : Except ConfigError Comp :=
  if isPow2 (size.getD p.ramDefaultSize) then .ok (.ram id order (size.getD p.ramDefaultSize))
  else .error .invalidSize

/-! ## MAP -/

/-- The checks of one binding against the intervals inserted before it, in the order of R175: negative base (R172),
alignment (R173), overlap (R174). -/
def checkBinding (placed : List (Nat × Nat)) (base : Int) (size : Nat) : Except ConfigError Nat :=
  if base < 0 then .error .negativeBase
  else if base.toNat &&& (size - 1) ≠ 0 then .error .invalidAlignment
  else if placed.any (fun r => overlaps base.toNat size r.1 r.2) then .error .overlappingRegion
  else .ok base.toNat

/-- The bindings of a map with built children, processed in list order (R175). -/
def placeAll : List (Nat × Nat) → List (Int × Comp) → Except ConfigError Regions
  | _, [] => .ok .nil
  | placed, (base, child) :: rest =>
    match checkBinding placed base child.size with
    | .error e => .error e
    | .ok b =>
      match placeAll (placed ++ [(b, child.size)]) rest with
      | .error e => .error e
      | .ok rs => .ok (.cons b child rs)

/-- Builds a map whose children are built (R170 to R177). -/
def buildMap (order : ByteOrder) (children : List (Int × Comp)) : Except ConfigError Comp :=
  match placeAll [] children with
  | .error e => .error e
  | .ok rs => .ok (.map order rs)

/-! ## The tree -/

end Sys2Proof.Machine

namespace Sys2Proof

open Machine in
mutual

/-- Builds a node after all of its children (R212, R242). -/
def Desc.build (p : Params) : Desc → Except ConfigError Comp
  | .rom id content size order padding => buildRom p id content size order padding
  | .ram id size order => buildRam p id size order
  | .map order mapping =>
    match mapping.build p with
    | .error e => .error e
    | .ok children => buildMap order children

/-- Builds the children of a map in list order; the first error is the one reported (R212). -/
def Bindings.build (p : Params) : Bindings → Except ConfigError (List (Int × Comp))
  | .nil => .ok []
  | .cons base child rest =>
    match child.build p with
    | .error e => .error e
    | .ok c =>
      match rest.build p with
      | .error e => .error e
      | .ok cs => .ok ((base, c) :: cs)

end

mutual

/-- The storage objects of a configuration (R30). -/
def Desc.leafIds : Desc → List Nat
  | .rom id _ _ _ _ => [id]
  | .ram id _ _ => [id]
  | .map _ mapping => mapping.leafIds

/-- The storage objects below the bindings of a map. -/
def Bindings.leafIds : Bindings → List Nat
  | .nil => []
  | .cons _ child rest => child.leafIds ++ rest.leafIds

end

/-- The bindings of a map as a list of base and child, in the order the constructor receives them (R170). -/
def Bindings.toList : Bindings → List (Int × Desc)
  | .nil => []
  | .cons base child rest => (base, child) :: rest.toList

end Sys2Proof

namespace Sys2Proof.Machine

/-- The state after construction of a built tree (R36, R240). -/
def constructed (addrW construction : Nat) (root : Comp) : State where
  root := root
  addrW := addrW
  construction := construction
  ram := []
  fault := none
  refused := false
  requests := []
  responses := []

/-- Construction of a whole configuration, the `construction`-th one (R240), its errors in the order of R212: aliasing
(R30), then every node bottom-up, then the address width (R53). -/
def construct (p : Params) (construction : Nat) (d : Desc) : Except ConfigError State :=
  if d.leafIds.Nodup then
    match d.build p with
    | .error e => .error e
    | .ok c =>
      if 2 ^ p.addrW < c.size then .error .addressWidthTooSmall
      else .ok (constructed p.addrW construction c)
  else .error .componentAliased

end Sys2Proof.Machine
end

