-- ==== Sys2Proof/Safety.lean ====
section
/-! DEFINITION. What claims are stated in: when a run is over and when it ended well (R249), what it shows, and the
invariant of the states that construction and steps reach. -/

namespace Sys2Proof

mutual

/-- A tree with every byte order set to `big`: two trees with one such form differ in byte orders alone (R58). -/
def Comp.eraseOrders : Comp → Comp
  | .rom id _ image => .rom id .big image
  | .ram id _ size => .ram id .big size
  | .map _ rs => .map .big rs.eraseOrders

/-- The same for every child of a map. -/
def Regions.eraseOrders : Regions → Regions
  | .nil => .nil
  | .cons base child rest => .cons base child.eraseOrders rest.eraseOrders

end

end Sys2Proof

namespace Sys2Proof.Machine

/-- The run is over: an error or a refusal ended it (R110, R249). -/
abbrev State.Over (s : State) : Prop := s.fault ≠ none ∨ s.refused = true

/-- The run ended successfully (R249). -/
abbrev State.EndedWell (s : State) : Prop := s.requests = [] ∧ s.fault = none ∧ s.refused = false

/-- The final contents of every RAM, by storage object (R249). -/
def State.ramContents (s : State) : List (Nat × List Byte) :=
  s.root.rams.map (fun r => (r.1, (List.range r.2).map (s.ramByte r.1)))

/-- What a run shows (R249): the responses and the RAM contents. -/
def State.observation (s : State) : List Rsp × List (Nat × List Byte) := (s.responses, s.ramContents)

/-- Where the byte at word offset `k` of a word access at `a` on the root goes (R54, R105, R106). -/
def State.target (s : State) (a : Nat) (k : Fin 4) : Target := s.root.locate (byteAddr s.addrW a k)

/-- A storage key of some RAM byte of the tree (R31). -/
abbrev State.OwnsKey (s : State) (key : Nat) : Prop :=
  ∃ r ∈ s.root.rams, ∃ i < r.2, key = ramKey r.1 i

/-- A fault record a request can leave (R209). -/
structure FaultRecord.Legal (s : State) (f : FaultRecord) : Prop where
  op_range : f.op ∈ [0b001#3, 0b010#3, 0b011#3, 0b100#3]
  addr_fits : f.reqAddr < 2 ^ s.addrW
  byte_first : f.op ∈ [0b001#3, 0b010#3] → f.byteIndex = 0
  in_map : f.mapAddr < s.root.size

/-- A response a request can give (R82). -/
structure Rsp.Legal (s : State) (r : Rsp) : Prop where
  status_range : r.status = statusOk ∨ r.status = statusUnmapped
  error_empty : r.status = statusUnmapped → r.rdata = 0#32 ∧ r.rlen = 0
  rlen_size : r.rlen = 0 ∨ r.rlen = s.root.size

/-- The invariant of the model: the tree is an admitted configuration, it fits the port, the storage is canonical and
lists only bytes of the tree's RAMs, and the fault record, the refusal mark and the responses agree. -/
structure State.Inv (s : State) : Prop where
  /-- R24 to R26, R30, R173, R174. -/
  root_valid : s.root.Valid
  /-- R53. -/
  root_fits : s.root.size ≤ 2 ^ s.addrW
  /-- R31, the canonical form. -/
  ram_wf : s.ram.Wf s.construction
  /-- R31. -/
  ram_owned : ∀ c ∈ s.ram, s.OwnsKey c.1
  /-- R110: a run ends for one reason. -/
  one_end : ¬ (s.fault ≠ none ∧ s.refused = true)
  /-- R209. -/
  fault_legal : ∀ f, s.fault = some f → FaultRecord.Legal s f
  /-- R82. -/
  rsp_legal : ∀ r ∈ s.responses, Rsp.Legal s r
  /-- R205, R210: without a fault every response is OK. -/
  rsp_ok : s.fault = none → ∀ r ∈ s.responses, r.status = statusOk
  /-- R205, R210: with a fault the last response, and no other, says so. -/
  rsp_fault : s.fault ≠ none →
    ∃ before, s.responses = before ++ [rspUnmapped] ∧ ∀ r ∈ before, r.status = statusOk

end Sys2Proof.Machine
end

