-- ==== Sys2Proof/Certificates/Slice0/Obligations.lean ====
section
/-! DEFINITION. The statements for the provers. A docstring names the rule or the section of spec/ a statement comes
from, and says where it rests on a decision of the spec (92_eei_decisions.md) or a choice of the model. -/

open Sys2Proof Sys2Proof.Machine

/-! ## Encoding -/

/-- Decoding an encoded well-formed request gives it back, for every address width (30_encoding.md §1, §2; the
format and the codes are the spec's decisions D1 and D2). -/
def Obligations.DecodeInvertsEncode : Prop :=
  ∀ (n : Nat) (i : Instr), i.WellFormed n → decode n (encode n i) = .ok i

/-- The packed word of a request is `op * 2^(ADDR_W+32) + addr * 2^32 + wdata`, ignored fields 0 (R81, decision
D1; that an ignored field is sent as 0 is the model's choice, notes/assumptions/5.md). -/
def Obligations.EncodedRequestHasItsFieldsInPlace : Prop :=
  ∀ (n a : Nat) (b : Byte) (w : Word), a < 2 ^ n →
    encode n .len = 0 ∧
    encode n (.rb a) = 1 * 2 ^ (n + 32) + a * 2 ^ 32 ∧
    encode n (.wb a b) = 2 * 2 ^ (n + 32) + a * 2 ^ 32 + b.toNat ∧
    encode n (.rw a) = 3 * 2 ^ (n + 32) + a * 2 ^ 32 ∧
    encode n (.ww a w) = 4 * 2 ^ (n + 32) + a * 2 ^ 32 + w.toNat

/-- Every word decodes to one well-formed request with the command code of its `op` field, or is refused by name:
`ReservedCommand` exactly for the codes 5, 6, 7, `ByteValueTooWide` exactly for a `WB` whose `wdata[31:8]` is not 0
(R84 to R86; decisions D2, D3, D5). -/
def Obligations.EveryRequestWordIsARequestOrANamedRefusal : Prop :=
  ∀ n w : Nat,
    (decode n w = .error .reservedCommand ↔ 5 ≤ w / 2 ^ (n + 32) % 8) ∧
    (decode n w = .error .byteValueTooWide ↔ w / 2 ^ (n + 32) % 8 = 2 ∧ 256 ≤ w % 2 ^ 32) ∧
    (∀ i, decode n w = .ok i → i.WellFormed n ∧ (opcode i).toNat = w / 2 ^ (n + 32) % 8)

/-- The operands of a decoded word are its `addr` and `wdata` fields, and the ignored fields play no part (R83, R84;
decisions D2, D5). -/
def Obligations.DecodedOperandsAreTheRequestFields : Prop :=
  ∀ n w : Nat,
    (w / 2 ^ (n + 32) % 8 = 0 → decode n w = .ok .len) ∧
    (w / 2 ^ (n + 32) % 8 = 1 → decode n w = .ok (.rb (w / 2 ^ 32 % 2 ^ n))) ∧
    (w / 2 ^ (n + 32) % 8 = 2 → w % 2 ^ 32 < 256 →
      decode n w = .ok (.wb (w / 2 ^ 32 % 2 ^ n) (BitVec.ofNat 8 (w % 2 ^ 32)))) ∧
    (w / 2 ^ (n + 32) % 8 = 3 → decode n w = .ok (.rw (w / 2 ^ 32 % 2 ^ n))) ∧
    (w / 2 ^ (n + 32) % 8 = 4 →
      decode n w = .ok (.ww (w / 2 ^ 32 % 2 ^ n) (BitVec.ofNat 32 (w % 2 ^ 32))))

/-- The packed words V-ENC-1 to V-ENC-9 of 95_test_vectors.md §2.10 decode to the requests and refusals beside them,
V-ENC-6 and V-ENC-7 with every operand bit (written x there) 0 and with every one 1. -/
def Obligations.SampleRequestWordsDecodeAsTheVectorsSay : Prop :=
  decode 16 0x0000000000000 = .ok .len ∧
  decode 16 0x1000D00000000 = .ok (.rb 0x000D) ∧
  decode 16 0x20006000000AB = .ok (.wb 0x0006 0xAB#8) ∧
  decode 16 0x3000200000000 = .ok (.rw 0x0002) ∧
  decode 16 0x4000011223344 = .ok (.ww 0x0000 0x11223344#32) ∧
  decode 16 0x5000000000000 = .error .reservedCommand ∧
  decode 16 0x5FFFFFFFFFFFF = .error .reservedCommand ∧
  decode 16 0x7000000000000 = .error .reservedCommand ∧
  decode 16 0x7FFFFFFFFFFFF = .error .reservedCommand ∧
  decode 16 0x20000000001AB = .error .byteValueTooWide ∧
  decode 16 0x10003FFFFFFFF = .ok (.rb 0x0003)

/-! ## The step -/

/-- A step runs the request on the port: it leaves the port's input and `exec` runs it (40_memory_contract.md §4). -/
def Obligations.StepRunsTheRequestOnThePort : Prop :=
  ∀ (s : State) (w : Nat) (rest : List Nat) (i : Instr),
    s.fault = none → s.refused = false → s.requests = w :: rest → decode s.addrW w = .ok i →
    step s = exec i { s with requests := rest }

/-- A request the decoder refuses sets `REFUSED`, changes nothing else and gets no response (30_encoding.md §3,
decision D3; that it leaves the port's input is the model's choice, notes/assumptions/3.md). -/
def Obligations.RefusedRequestOnlySetsTheMark : Prop :=
  ∀ (s : State) (w : Nat) (rest : List Nat) (e : DecodeRefusal),
    s.fault = none → s.refused = false → s.requests = w :: rest → decode s.addrW w = .error e →
    step s = .next { s with requests := rest, refused := true }

/-- There is no step once `FAULT` or `REFUSED` is set (40_memory_contract.md §4, decision D23), and none without a
request (the outcome's name is the model's choice, notes/assumptions/3.md). -/
def Obligations.NoStepOnceTheRunIsOver : Prop :=
  ∀ s : State,
    (s.fault ≠ none → step s = .fault .runFaulted) ∧
    (s.fault = none → s.refused = true → step s = .refused .runRefused) ∧
    (s.fault = none → s.refused = false → s.requests = [] → step s = .fault .noRequest)

/-- Every step keeps the invariant: the tree stays an admitted configuration that fits the port, the RAM storage stays
canonical and lists only RAM bytes of the tree, and the fault record, the refusal mark and the responses agree. The
invariant reads `op`, `reqAddr`, `byteIndex` and `mapAddr` of the fault record (decision D8: a claim should rest only on
`code`) and the zero data of an error response (decision D26: a claim must not read it), so those parts of it are about
the model's record and response (notes/assumptions/8.md), not about the source; the port's width is decision D4 and the
refusal of aliasing decision D11. -/
def Obligations.StepKeepsTheInvariant : Prop :=
  ∀ s t : State, s.Inv → step s = .next t → t.Inv

/-- The state after reset meets the invariant. -/
def Obligations.ResetMeetsTheInvariant : Prop := State.reset.Inv

/-- Every configuration that construction admits starts in a state that meets the invariant: sizes are powers of two,
bases aligned, regions disjoint, storage objects distinct, and the root fits the port (that the root fits the port is
decision D4, that storage objects are distinct decision D11). -/
def Obligations.ConstructionMeetsTheInvariant : Prop :=
  ∀ (p : Params) (n : Nat) (d : Desc) (s : State), construct p n d = .ok s → s.Inv

/-- R28: no request, and no error, changes a configuration field (nor the address width). -/
def Obligations.ConfigurationIsNeverChanged : Prop :=
  (∀ (i : Instr) (s t : State), exec i s = .next t → t.root = s.root ∧ t.addrW = s.addrW) ∧
  (∀ s t : State, step s = .next t → t.root = s.root ∧ t.addrW = s.addrW)

/-- Only `WB` and `WW` change RAM storage; a `LEN`, `RB` or `RW` leaves every byte, whether it answers or takes the
error, and so does a refused request (20_memory.md §4). -/
def Obligations.OnlyWriteRequestsChangeRam : Prop :=
  (∀ (i : Instr) (s t : State), exec i s = .next t →
    t.ram = s.ram ∨ (∃ a b, i = .wb a b) ∨ (∃ a w, i = .ww a w)) ∧
  (∀ s t : State, step s = .next t → t.refused = true → t.ram = s.ram)

/-- `FAULT` is set by the first error only and never cleared, and no request touches `REFUSED` (10_state.md §3;
decisions D8, D23). -/
def Obligations.FaultAndRefusalStayOnceSet : Prop :=
  ∀ (i : Instr) (s t : State), exec i s = .next t →
    (∀ f, s.fault = some f → t.fault = some f) ∧ t.refused = s.refused

/-- Every request, on every state, completes and gives exactly one response, OK or UnmappedAddress, and without an
earlier fault `FAULT` is set exactly when the response is UnmappedAddress (60_exceptions.md §1, §2; the status codes
are decision D16). -/
def Obligations.EveryRequestCompletesWithOneResponse : Prop :=
  ∀ (i : Instr) (s : State), ∃ (t : State) (q : Rsp),
    exec i s = .next t ∧ t.responses = s.responses ++ [q] ∧ t.requests = s.requests ∧
    (q.status = 0b00#2 ∨ q.status = 0b01#2) ∧
    (s.fault = none → (q.status = 0b01#2 ↔ t.fault ≠ none))

/-- `LEN` never raises, and no request raises when the root is a ROM or a RAM (60_exceptions.md §1, R205). -/
def Obligations.NoErrorOnARomOrRamRootNorForLen : Prop :=
  ∀ (i : Instr) (s t : State),
    (i = .len ∨ (∃ id o image, s.root = .rom id o image) ∨ (∃ id o n, s.root = .ram id o n)) →
    exec i s = .next t → t.fault = s.fault

/-- A run in which every request has been stepped without `FAULT` or `REFUSED` gave one OK response for each of them
(70_reset_and_hazards.md §5, decision D25). -/
def Obligations.RunThatEndedWellAnsweredEveryRequest : Prop :=
  ∀ s t : State, s.responses = [] → Sys2Proof.core.run s.requests.length s = .next t → t.EndedWell →
    t.responses.length = s.requests.length ∧ ∀ q ∈ t.responses, q.status = 0b00#2

/-! ## The requests -/

/-- R102: `LEN`, code 0 with the other fields ignored, answers the size of the root on every state, raises nothing and
changes nothing else; a root map without regions answers 1, one with a RAM of 4 at 0 and one of 4 at 4 answers 8, and a
size that fits the port is representable in `ADDR_W + 1` bits. -/
def Obligations.LenAnswersTheSizeOfTheRoot : Prop :=
  (∀ n w : Nat, w / 2 ^ (n + 32) % 8 = 0 → decode n w = .ok .len) ∧
  ∀ s : State,
    exec .len s = .next { s with responses := s.responses ++ [⟨0b00#2, 0#32, s.root.size⟩] } ∧
    (∀ o, s.root = .map o .nil → s.root.size = 1) ∧
    (∀ o o' o'' r r', s.root = .map o (.cons 0 (.ram r o' 4) (.cons 4 (.ram r' o'' 4) .nil)) → s.root.size = 8) ∧
    (s.root.size ≤ 2 ^ s.addrW → s.root.size < 2 ^ (s.addrW + 1))

/-- `RB` answers the ROM or RAM byte its address reaches, zero-extended, and changes nothing else
(40_memory_contract.md §2, R103, without the hole). -/
def Obligations.ByteReadAnswersTheByteReached : Prop :=
  ∀ (s : State) (a : Nat),
    (∀ id i v, s.root.locate a = .rom id i v →
      exec (.rb a) s = .next { s with responses := s.responses ++ [⟨0b00#2, v.setWidth 32, 0⟩] }) ∧
    (∀ r i, s.root.locate a = .ram r i →
      exec (.rb a) s = .next { s with responses := s.responses ++ [⟨0b00#2, (s.ramByte r i).setWidth 32, 0⟩] })

/-- `WB` to a RAM byte stores it and changes no other byte and nothing else but the response; `WB` to a ROM byte is
discarded and answers OK (40_memory_contract.md §2, R104, without the hole). -/
def Obligations.ByteWriteStoresInRamAndIsDiscardedByRom : Prop :=
  ∀ (s : State) (a : Nat) (v : Byte),
    (∀ r i, s.root.locate a = .ram r i →
      ∃ t, exec (.wb a v) s = .next t ∧
        t = { s with ram := t.ram, responses := s.responses ++ [⟨0b00#2, 0#32, 0⟩] } ∧
        t.ramByte r i = v ∧
        ∀ r' i', ¬ (r' = r ∧ i' = i) → t.ramByte r' i' = s.ramByte r' i') ∧
    (∀ id i w, s.root.locate a = .rom id i w →
      exec (.wb a v) s = .next { s with responses := s.responses ++ [⟨0b00#2, 0#32, 0⟩] })

/-- `RW` answers the four bytes at `a`, `a+1`, `a+2`, `a+3`, packed in the root's byte order, and changes nothing else
(40_memory_contract.md §2, R105, without the hole; the bit placement of R56 is general knowledge). -/
def Obligations.WordReadAnswersTheFourBytesPacked : Prop :=
  ∀ (s : State) (a : Nat) (b : Fin 4 → Byte),
    (∀ k, (∃ id i, s.target a k = .rom id i (b k)) ∨ (∃ r i, s.target a k = .ram r i ∧ s.ramByte r i = b k)) →
    exec (.rw a) s = .next
      { s with responses := s.responses ++ [⟨0b00#2, pack s.root.order (b 0) (b 1) (b 2) (b 3), 0⟩] }

/-- `WW` without a hole stores each byte of the word in the RAM byte its offset reaches, the highest offset winning
where two reach one byte, discards those that reach a ROM, and changes no other byte and nothing else but the response
(40_memory_contract.md §2, R106, without the hole). -/
def Obligations.WordWriteStoresItsFourBytesInOffsetOrder : Prop :=
  ∀ (s : State) (a : Nat) (v : Word), (∀ k, (s.target a k).isHole = false) →
    ∃ t, exec (.ww a v) s = .next t ∧
      t = { s with ram := t.ram, responses := s.responses ++ [⟨0b00#2, 0#32, 0⟩] } ∧
      (∀ k r i, s.target a k = .ram r i → (∀ j, k < j → s.target a j ≠ .ram r i) →
        t.ramByte r i = unpack s.root.order v k) ∧
      (∀ r i, (∀ k, s.target a k ≠ .ram r i) → t.ramByte r i = s.ramByte r i)

/-- `RB` and `WB` at a hole take `UnmappedAddress`: the fault record is set, the response says so, nothing is written
(60_exceptions.md §2, 40_memory_contract.md §4, R110). The record's fields other than `code` are decision D8, the status
codes decision D16, the zero data of the error response decision D26, which a claim must not read (R82): those parts are
the spec's own choices, notes/assumptions/8.md. -/
def Obligations.ByteAccessToAHoleTakesUnmappedAddress : Prop :=
  ∀ (s : State) (a m : Nat) (v : Byte), s.fault = none → s.root.locate a = .hole m →
    exec (.rb a) s = .next
      { s with fault := some ⟨.unmappedAddress, 0b001#3, a, 0, m⟩,
               responses := s.responses ++ [⟨0b01#2, 0#32, 0⟩] } ∧
    exec (.wb a v) s = .next
      { s with fault := some ⟨.unmappedAddress, 0b010#3, a, 0, m⟩,
               responses := s.responses ++ [⟨0b01#2, 0#32, 0⟩] }

/-- `RW` stops at the first offset that reaches a hole and takes `UnmappedAddress` with that offset; nothing is written
(60_exceptions.md §2, §3; 40_memory_contract.md §2 R105, §3 R107, §4 R110). The order of the byte accesses is decision
D7, the record's fields other than `code` decision D8, the status codes decision D16, the zero data of the error response
decision D26, which a claim must not read (R82): notes/assumptions/8.md. -/
def Obligations.WordReadStopsAtTheFirstHole : Prop :=
  ∀ (s : State) (a m : Nat) (k : Fin 4), s.fault = none →
    (∀ j, j < k → (s.target a j).isHole = false) → s.target a k = .hole m →
    exec (.rw a) s = .next
      { s with fault := some ⟨.unmappedAddress, 0b011#3, a, k, m⟩,
               responses := s.responses ++ [⟨0b01#2, 0#32, 0⟩] }

/-- `WW` stops at the first offset that reaches a hole and takes `UnmappedAddress`; the bytes at earlier offsets stay
written, and no other byte changes (60_exceptions.md §2, §3; 40_memory_contract.md §2 R106, §3 R107, §4 R110). The bytes
that stay written are decision D7, the record's fields other than `code` decision D8, the status codes decision D16, the
zero data of the error response decision D26, which a claim must not read (R82): notes/assumptions/8.md. -/
def Obligations.WordWriteIntoAHoleKeepsTheEarlierBytes : Prop :=
  ∀ (s : State) (a m : Nat) (v : Word) (k : Fin 4), s.fault = none →
    (∀ j, j < k → (s.target a j).isHole = false) → s.target a k = .hole m →
    ∃ t, exec (.ww a v) s = .next t ∧
      t = { s with ram := t.ram, fault := some ⟨.unmappedAddress, 0b100#3, a, k, m⟩,
                   responses := s.responses ++ [⟨0b01#2, 0#32, 0⟩] } ∧
      (∀ j r i, j < k → s.target a j = .ram r i → (∀ j', j < j' → j' < k → s.target a j' ≠ .ram r i) →
        t.ramByte r i = unpack s.root.order v j) ∧
      (∀ r i, (∀ j, j < k → s.target a j ≠ .ram r i) → t.ramByte r i = s.ramByte r i)

/-! ## Components -/

/-- R138: a ROM byte read returns the image byte at the masked address; it never raises. -/
def Obligations.RomReadReturnsTheImageByte : Prop :=
  ∀ (s : State) (id : Nat) (o : ByteOrder) (image : List Byte) (a : Nat), isPow2 image.length = true →
    ∃ v, image[a &&& (image.length - 1)]? = some v ∧ readByteC s (.rom id o image) a = .ok v

/-- R139: a ROM byte write does nothing, for every address and every byte. -/
def Obligations.RomWriteDoesNothing : Prop :=
  ∀ (s : State) (id : Nat) (o : ByteOrder) (image : List Byte) (a : Nat) (v : Byte),
    writeByteC s (.rom id o image) a v = .ok s

/-- R153 and R154: a RAM byte read returns the byte at the masked address, a write sets that byte and changes nothing
else; neither raises. -/
def Obligations.RamReadsAndWritesTheMaskedByte : Prop :=
  ∀ (s : State) (r : Nat) (o : ByteOrder) (n a : Nat) (v : Byte),
    readByteC s (.ram r o n) a = .ok (s.ramByte r (a &&& (n - 1))) ∧
    ∃ t, writeByteC s (.ram r o n) a v = .ok t ∧ t = { s with ram := t.ram } ∧
      ∀ r' i', t.ramByte r' i' = if r' = r ∧ i' = a &&& (n - 1) then v else s.ramByte r' i'

/-- R181 and R182: a map masks the address, routes it, and passes the local offset to the child that hits, or raises
`UnmappedAddress` with the masked address where none hits. -/
def Obligations.MapByteAccessRoutesToTheChild : Prop :=
  ∀ (s : State) (o : ByteOrder) (rs : Regions) (a : Nat) (v : Byte),
    let m := a &&& ((Comp.map o rs).size - 1)
    (∀ base child, rs.route m = some (base, child) →
      readByteC s (.map o rs) a = readByteC s child (m - base) ∧
      writeByteC s (.map o rs) a v = writeByteC s child (m - base) v) ∧
    (rs.route m = none →
      readByteC s (.map o rs) a = .error m ∧ writeByteC s (.map o rs) a v = .error m)

/-- In an admitted map at most one region hits an address, the router answers it, and the local offset is the low
address bits; the router answers none exactly where no region hits (43_memory_map.md §2, R179, R180, R183). -/
def Obligations.RouterAnswersTheOneRegionThatHits : Prop :=
  ∀ (rs : Regions) (m : Nat), rs.checked = true →
    (∀ base child, ((base, child) ∈ rs.toList ∧ base ≤ m ∧ m < base + child.size) ↔
      rs.route m = some (base, child)) ∧
    (∀ base child, rs.route m = some (base, child) →
      m - base < child.size ∧ m - base = m &&& (child.size - 1)) ∧
    (rs.route m = none ↔ ∀ r ∈ rs.toList, ¬ (r.1 ≤ m ∧ m < r.1 + r.2.size))

/-- For a power-of-two size and an aligned base the region guard is a comparison of the high address bits
(43_memory_map.md §2, R178). -/
def Obligations.GuardComparesTheHighAddressBits : Prop :=
  ∀ base k m : Nat, base &&& (2 ^ k - 1) = 0 →
    (hits base (2 ^ k) m = true ↔ m >>> k = base >>> k) ∧
    (hits base (2 ^ k) m = true ↔ m - (m &&& (2 ^ k - 1)) = base)

/-- Every byte of every child is reached, by exactly the addresses whose masked value is `BASE + k`
(43_memory_map.md §3, R185). -/
def Obligations.EveryByteOfEveryChildIsReached : Prop :=
  ∀ (o : ByteOrder) (rs : Regions) (base : Nat) (child : Comp) (k : Nat),
    rs.checked = true → (base, child) ∈ rs.toList → k < child.size →
    base + k < (Comp.map o rs).size ∧
    ∀ a, let m := a &&& ((Comp.map o rs).size - 1)
      (rs.route m = some (base, child) ∧ m - base = k ↔ m = base + k) ∧
      (m = base + k → (Comp.map o rs).locate a = child.locate k)

/-- Two power-of-two regions, each aligned to its own size, are disjoint or one contains the other
(43_memory_map.md §3, R186). -/
def Obligations.AlignedRegionsAreDisjointOrNested : Prop :=
  ∀ b k b' k' : Nat, b % 2 ^ k = 0 → b' % 2 ^ k' = 0 →
    overlaps b (2 ^ k) b' (2 ^ k') = false ∨
    (b ≤ b' ∧ b' + 2 ^ k' ≤ b + 2 ^ k) ∨ (b' ≤ b ∧ b + 2 ^ k ≤ b' + 2 ^ k')

/-- Every access wraps around at the component's size: adding a multiple of it to the address changes neither a read
nor a write (20_memory.md §1, R52). -/
def Obligations.AccessesWrapAroundAtTheSize : Prop :=
  ∀ (s : State) (c : Comp) (a k : Nat) (v : Byte), c.checked = true →
    readByteC s c (a + k * c.size) = readByteC s c a ∧
    writeByteC s c (a + k * c.size) v = writeByteC s c a v

/-- Where the root fits the port, the addresses of a word computed modulo `2^ADDR_W` reach what the unbounded sums
reach (20_memory.md §1, R53, R54; the port is decision D4). -/
def Obligations.PortAddressesReachTheUnboundedSums : Prop :=
  ∀ (s : State) (a : Nat) (k : Fin 4), s.root.checked = true → s.root.size ≤ 2 ^ s.addrW →
    s.target a k = s.root.locate (a + k.val)

/-- In an admitted configuration distinct masked root addresses reach distinct storage bytes or holes
(20_memory.md §6, R71; the refusal of aliasing is decision D11). -/
def Obligations.DistinctAddressesReachDistinctBytes : Prop :=
  ∀ (c : Comp) (a a' : Nat), c.Valid → (c.locate a).isHole = false →
    c.locate a = c.locate a' → a % c.size = a' % c.size

/-- The byte orders of the children have no effect on any request, and no byte order at all has an effect on `LEN`, `RB`
and `WB`: on trees that differ in byte orders alone, requests do the same (20_memory.md §2, R55, R58). -/
def Obligations.OnlyTheRootOrderMattersAndOnlyForWords : Prop :=
  ∀ (i : Instr) (s t : State) (c : Comp), c.eraseOrders = s.root.eraseOrders →
    (c.order = s.root.order ∨ i = .len ∨ (∃ a, i = .rb a) ∨ (∃ a b, i = .wb a b)) →
    exec i s = .next t → exec i { s with root := c } = .next { t with root := c }

/-- `pack` and `unpack` are inverse to each other in both byte orders (20_memory.md §2, R57). -/
def Obligations.PackAndUnpackAreInverse : Prop :=
  ∀ (o : ByteOrder),
    (∀ v, pack o (unpack o v 0) (unpack o v 1) (unpack o v 2) (unpack o v 3) = v) ∧
    (∀ (b : Fin 4 → Byte) (k : Fin 4), unpack o (pack o (b 0) (b 1) (b 2) (b 3)) k = b k)

/-- Big order puts the byte at the lowest address in bits 31:24, little order in bits 7:0 (20_memory.md §2, R56; the
placement is the spec's general knowledge, notes/assumptions/6.md). -/
def Obligations.ByteOrderPlacesTheBytes : Prop :=
  ∀ b0 b1 b2 b3 : Byte,
    (pack .big b0 b1 b2 b3).toNat =
      b0.toNat * 2 ^ 24 + b1.toNat * 2 ^ 16 + b2.toNat * 2 ^ 8 + b3.toNat ∧
    (pack .little b0 b1 b2 b3).toNat =
      b3.toNat * 2 ^ 24 + b2.toNat * 2 ^ 16 + b1.toNat * 2 ^ 8 + b0.toNat

/-- `nextPow2` is the smallest power of two that is at least its argument (00_scope.md §3, R12). -/
def Obligations.NextPowerOfTwoIsTheSmallest : Prop :=
  ∀ n : Nat, (∃ k, nextPow2 n = 2 ^ k) ∧ n ≤ nextPow2 n ∧ ∀ j, n ≤ 2 ^ j → nextPow2 n ≤ 2 ^ j

/-- R176: the size of a map with regions is the smallest power of two that no region's end exceeds; without regions it
is 1 (R177); its mask is the size less 1. -/
def Obligations.MapSizeIsTheSmallestThatCovers : Prop :=
  ∀ (o : ByteOrder) (rs : Regions),
    (Comp.map o rs).mask = (Comp.map o rs).size - 1 ∧
    (∃ k, (Comp.map o rs).size = 2 ^ k) ∧
    (∀ r ∈ rs.toList, r.1 + r.2.size ≤ (Comp.map o rs).size) ∧
    (∀ j, (∀ r ∈ rs.toList, r.1 + r.2.size ≤ 2 ^ j) → (Comp.map o rs).size ≤ 2 ^ j) ∧
    (rs = .nil → (Comp.map o rs).size = 1)

/-! ## Words and bytes together -/

/-- In an admitted configuration a byte write changes what reads return at exactly the addresses with its masked value:
the decoded space is one flat byte array (20_memory.md §6, R66, R71; 42_ram.md §3, R155, R156; the refusal of aliasing
is decision D11). -/
def Obligations.ByteWriteChangesOneMaskedAddress : Prop :=
  ∀ (s : State) (a r i : Nat) (v : Byte), s.root.Valid → s.root.locate a = .ram r i →
    ∃ t, exec (.wb a v) s = .next t ∧
      ∀ a', readByteC t t.root a' =
        if a' % s.root.size = a % s.root.size then .ok v else readByteC s s.root a'

/-- A word written where the four masked addresses are distinct and reach RAM is the word the next `RW` answers, and an
`RB` at each of its addresses answers its byte (40_memory_contract.md §3, R109; 20_memory.md §2, R59). -/
def Obligations.WordWrittenIsReadBack : Prop :=
  ∀ (s : State) (a : Nat) (v : Word), s.root.Valid →
    (∀ k, ∃ r i, s.target a k = .ram r i) →
    (∀ j k : Fin 4, j ≠ k → byteAddr s.addrW a j % s.root.size ≠ byteAddr s.addrW a k % s.root.size) →
    ∃ t, exec (.ww a v) s = .next t ∧
      exec (.rw a) t = .next { t with responses := t.responses ++ [⟨0b00#2, v, 0⟩] } ∧
      ∀ k : Fin 4, exec (.rb (byteAddr s.addrW a k)) t = .next
        { t with responses := t.responses ++ [⟨0b00#2, (unpack s.root.order v k).setWidth 32, 0⟩] }

/-- On a RAM of one or two bytes a word overlaps itself: the bytes written last stand, and a read repeats them
(40_memory_contract.md §2, R106 corner cases; 70_reset_and_hazards.md §3, R246). -/
def Obligations.WordsOverlapThemselvesOnSmallRams : Prop :=
  ∀ (s : State) (r : Nat) (o : ByteOrder) (a : Nat) (v : Word),
    (s.root = .ram r o 1 → ∃ t, exec (.ww a v) s = .next t ∧ t.ramByte r 0 = unpack o v 3 ∧
      exec (.rw a) t = .next { t with responses := t.responses ++
        [⟨0b00#2, pack o (unpack o v 3) (unpack o v 3) (unpack o v 3) (unpack o v 3), 0⟩] }) ∧
    (s.root = .ram r o 2 → 1 ≤ s.addrW → a % 2 = 0 → ∃ t, exec (.ww a v) s = .next t ∧
      t.ramByte r 0 = unpack o v 2 ∧ t.ramByte r 1 = unpack o v 3 ∧
      exec (.rw a) t = .next { t with responses := t.responses ++
        [⟨0b00#2, pack o (unpack o v 2) (unpack o v 3) (unpack o v 2) (unpack o v 3), 0⟩] })

/-- A ROM built from words answers word `k` to `RW 4k` when it is the root (41_rom.md §3, R141). -/
def Obligations.RomWordsReadBackInTheRomsOrder : Prop :=
  ∀ (s : State) (p : Params) (id : Nat) (ws : List Nat) (size : Option Nat) (o : ByteOrder)
    (pad : Option (List Byte)) (k w : Nat),
    buildRom p id (.words ws) size o pad = .ok s.root → s.root.size ≤ 2 ^ s.addrW → ws[k]? = some w →
    exec (.rw (4 * k)) s = .next
      { s with responses := s.responses ++ [⟨0b00#2, BitVec.ofNat 32 w, 0⟩] }

/-- Where a ROM built from words is a child of the root map, at any base and beside any other regions, and the map has
the other byte order, `RW` at the word's address `base + 4k` answers the word with its four bytes reversed (41_rom.md §3,
R142). -/
def Obligations.RomWordsReverseUnderTheOtherOrder : Prop :=
  ∀ (s : State) (p : Params) (id : Nat) (ws : List Nat) (size : Option Nat) (o o' : ByteOrder)
    (pad : Option (List Byte)) (k w base : Nat) (c : Comp) (rs : Regions),
    buildRom p id (.words ws) size o pad = .ok c → s.root = .map o' rs → rs.checked = true →
    (base, c) ∈ rs.toList → o' ≠ o → s.root.size ≤ 2 ^ s.addrW → ws[k]? = some w →
    ∃ x : Word, (∀ i : Fin 4, byteAt x (8 * i.val) = byteAt (BitVec.ofNat 32 w) (8 * (3 - i.val))) ∧
      exec (.rw (base + 4 * k)) s = .next { s with responses := s.responses ++ [⟨0b00#2, x, 0⟩] }

/-- No step changes what an address that reaches a ROM reads (41_rom.md §3, R140). -/
def Obligations.RomBytesNeverChange : Prop :=
  ∀ (s t : State) (a id i : Nat) (v : Byte), s.root.locate a = .rom id i v → step s = .next t →
    readByteC t t.root a = .ok v ∧ readByteC s s.root a = .ok v

/-! ## Construction -/

/-- R135: a ROM's image is its content, then the padding pattern at the phase of the absolute byte offset; its length is
the explicit size, or, for content of at least one byte, the next power of two. -/
def Obligations.RomImageIsContentThenPaddingInPhase : Prop :=
  ∀ (p : Params) (id : Nat) (content : Content) (size : Option Nat) (o : ByteOrder)
    (padding : Option (List Byte)) (c : Comp),
    buildRom p id content size o padding = .ok c →
    ∃ image, c = .rom id o image ∧
      (∀ n, size = some n → image.length = n) ∧
      (size = none → 1 ≤ (contentBytes o content).length →
        image.length = nextPow2 (contentBytes o content).length) ∧
      ∀ i, i < image.length →
        image[i]? = if i < (contentBytes o content).length then (contentBytes o content)[i]?
          else (padding.getD p.romDefaultPad)[i % (padding.getD p.romDefaultPad).length]?

/-- A ROM's checks, the first that fails deciding: empty padding, a word out of range, an explicit size that is no power
of two, content larger than it; otherwise it is built (41_rom.md §1; decisions D13, D14, D15). -/
def Obligations.RomChecksAreMadeInOrder : Prop :=
  ∀ (p : Params) (id : Nat) (content : Content) (size : Option Nat) (o : ByteOrder)
    (padding : Option (List Byte)),
    let pad := padding.getD p.romDefaultPad
    let wide := ∃ ws w, content = .words ws ∧ w ∈ ws ∧ 2 ^ 32 ≤ w
    let badSize := ∃ n, size = some n ∧ ¬ ∃ k, n = 2 ^ k
    let large := ∃ n, size = some n ∧ n < (contentBytes o content).length
    (pad = [] → buildRom p id content size o padding = .error .emptyPadding) ∧
    (pad ≠ [] → wide → buildRom p id content size o padding = .error .wordValueOutOfRange) ∧
    (pad ≠ [] → ¬ wide → badSize → buildRom p id content size o padding = .error .invalidSize) ∧
    (pad ≠ [] → ¬ wide → ¬ badSize → large →
      buildRom p id content size o padding = .error .contentTooLarge) ∧
    (pad ≠ [] → ¬ wide → ¬ badSize → ¬ large → ∃ c, buildRom p id content size o padding = .ok c)

/-- R151: a RAM whose size is no power of two, 0 included, fails with `InvalidSize`; with a power of two it is built with
that size, and without one with the default (R150, a parameter: decision D17). -/
def Obligations.RamSizeMustBeAPowerOfTwo : Prop :=
  ∀ (p : Params) (id : Nat) (size : Option Nat) (o : ByteOrder),
    ((¬ ∃ k, size.getD p.ramDefaultSize = 2 ^ k) → buildRam p id size o = .error .invalidSize) ∧
    ((∃ k, size.getD p.ramDefaultSize = 2 ^ k) →
      buildRam p id size o = .ok (.ram id o (size.getD p.ramDefaultSize)))

/-- A map is built exactly when every base is a natural number that its child's size divides and the regions are pairwise
disjoint; its regions are then the bindings in list order (43_memory_map.md §1, R173, R174; the refusal of a negative
base is decision D12). -/
def Obligations.MapIsBuiltExactlyFromAlignedDisjointBindings : Prop :=
  ∀ (o : ByteOrder) (children : List (Int × Comp)), (∀ x ∈ children, x.2.checked = true) →
    ((∃ c, buildMap o children = .ok c) ↔
      (∀ x ∈ children, 0 ≤ x.1 ∧ x.2.size ∣ x.1.toNat) ∧
      children.Pairwise (fun x y => x.1 + (x.2.size : Int) ≤ y.1 ∨ y.1 + (y.2.size : Int) ≤ x.1)) ∧
    (∀ c, buildMap o children = .ok c →
      ∃ rs, c = .map o rs ∧ rs.toList = children.map (fun x => (x.1.toNat, x.2)))

/-- One binding's checks are made in the order negative base, alignment, overlap with the bindings before it, and the
first binding that fails decides (43_memory_map.md §1, R175; decision D15). -/
def Obligations.BindingChecksAreMadeInOrder : Prop :=
  ∀ (o : ByteOrder) (before after : List (Int × Comp)) (base : Int) (child : Comp),
    (∃ c, buildMap o before = .ok c) →
    let clash := ∃ x ∈ before, x.1 < base + (child.size : Int) ∧ base < x.1 + (x.2.size : Int)
    (base < 0 → buildMap o (before ++ (base, child) :: after) = .error .negativeBase) ∧
    (0 ≤ base → base.toNat &&& (child.size - 1) ≠ 0 →
      buildMap o (before ++ (base, child) :: after) = .error .invalidAlignment) ∧
    (0 ≤ base → base.toNat &&& (child.size - 1) = 0 → clash →
      buildMap o (before ++ (base, child) :: after) = .error .overlappingRegion)

/-- Every node is built by its own checks, after its children: a ROM and a RAM by theirs; a map reports the error of its
first child in list order that fails, before any check of its own bindings, and where every child is built it makes its
own checks on the built children (60_exceptions.md §3, R212 step 2; decision D15). -/
def Obligations.ChildrenAreBuiltInListOrderBeforeTheirMap : Prop :=
  ∀ p : Params,
    (∀ id content size order padding,
      (Desc.rom id content size order padding).build p = buildRom p id content size order padding) ∧
    (∀ id size order, (Desc.ram id size order).build p = buildRam p id size order) ∧
    (∀ (order : ByteOrder) (mapping : Bindings) (before after : List (Int × Desc)) (base : Int) (child : Desc)
        (e : ConfigError),
      mapping.toList = before ++ (base, child) :: after → (∀ x ∈ before, ∃ c, x.2.build p = .ok c) →
      child.build p = .error e → (Desc.map order mapping).build p = .error e) ∧
    (∀ (order : ByteOrder) (mapping : Bindings) (children : List (Int × Comp)),
      mapping.toList.map (fun x => (x.1, x.2.build p)) = children.map (fun x => (x.1, .ok x.2)) →
      (Desc.map order mapping).build p = buildMap order children)

/-- A configuration that binds one storage object twice is refused before every other check; an admitted one gives a tree
with the configuration's storage objects; a root that does not fit the port is refused; and every other configuration is
constructed, a root of exactly `2^ADDR_W` bytes included (10_state.md §2, R30; 20_memory.md §1, R53; 60_exceptions.md §3,
R212 steps 1 and 3; decisions D4, D11, D15). -/
def Obligations.AliasingIsRefusedFirstAndThePortWidthLast : Prop :=
  ∀ (p : Params) (n : Nat) (d : Desc),
    (¬ d.leafIds.Nodup → construct p n d = .error .componentAliased) ∧
    (∀ s, construct p n d = .ok s → s.root.leafIds = d.leafIds ∧ s.root.leafIds.Nodup) ∧
    (∀ e, d.leafIds.Nodup → d.build p = .error e → construct p n d = .error e) ∧
    (∀ c, d.leafIds.Nodup → d.build p = .ok c → 2 ^ p.addrW < c.size →
      construct p n d = .error .addressWidthTooSmall) ∧
    (∀ c, d.leafIds.Nodup → d.build p = .ok c → c.size ≤ 2 ^ p.addrW →
      construct p n d = .ok (constructed p.addrW n c))

/-- After construction every RAM byte reads its draw, `FAULT` is none and `REFUSED` is false and no response has been given
(10_state.md §3, R36; 70_reset_and_hazards.md §1, R240; decisions D3, D8, D9, D10). -/
def Obligations.ConstructionLeavesEveryRamByteAtItsDraw : Prop :=
  ∀ (p : Params) (n : Nat) (d : Desc) (s : State), construct p n d = .ok s →
    d.build p = .ok s.root ∧ s.addrW = p.addrW ∧ s.construction = n ∧
    s.fault = none ∧ s.refused = false ∧ s.responses = [] ∧
    ∀ r i, s.ramByte r i = Config.ramDraw n (ramKey r i)

/-- The reset state is the construction of configuration M2 of 95_test_vectors.md P2 (the choice of configuration is the
model's, notes/assumptions/1.md). -/
def Obligations.ResetIsTheConstructionOfTheSampleMap : Prop :=
  construct { addrW := 16 } 0
    (.map .little
      (.cons 0 (.ram 0 (some 4) .big)
        (.cons 8 (.rom 1 (.bytes [0xDE#8, 0xAD#8, 0xBE#8, 0xEF#8]) none .big none)
          .nil))) = .ok State.reset
end

