-- ==== Sys2Proof/Laws/Decoder.lean ====
section
/-! SUPPORT. Powers of two and masks, and the small lemmas of the decoder's definitions. -/

namespace Sys2Proof

theorem isPow2_pos {n : Nat} (h : isPow2 n = true) : 0 < n := by
  simp only [isPow2, Bool.and_eq_true, decide_eq_true_eq] at h
  exact h.1

theorem isPow2_two_pow (k : Nat) : isPow2 (2 ^ k) = true := by
  simp [isPow2, Nat.one_le_two_pow, Nat.and_two_pow_sub_one_eq_mod]

/-- What the check of R12 checks. -/
theorem isPow2_iff {n : Nat} : isPow2 n = true ↔ ∃ k, n = 2 ^ k := by
  constructor
  · intro h
    have hpos := isPow2_pos h
    simp only [isPow2, Bool.and_eq_true, beq_iff_eq] at h
    refine ⟨Nat.log2 n, ?_⟩
    by_contra hne
    have hle := Nat.log2_self_le hpos.ne'
    have hlt := Nat.lt_log2_self (n := n)
    have hn : n.testBit (Nat.log2 n) = true := by
      rw [Nat.testBit_eq_decide_div_mod_eq]
      have : n / 2 ^ Nat.log2 n = 1 := by
        apply Nat.div_eq_of_lt_le <;> omega
      simp [this]
    have hm : (n - 1).testBit (Nat.log2 n) = true := by
      rw [Nat.testBit_eq_decide_div_mod_eq]
      have : (n - 1) / 2 ^ Nat.log2 n = 1 := by
        apply Nat.div_eq_of_lt_le <;> omega
      simp [this]
    have hz : (n &&& (n - 1)).testBit (Nat.log2 n) = true := by
      rw [Nat.testBit_and, hn, hm]; rfl
    rw [h.2] at hz
    simp at hz
  · rintro ⟨k, rfl⟩
    exact isPow2_two_pow k

/-- Masking by `SIZE - 1` is the remainder by `SIZE` (R27). -/
theorem and_mask_eq_mod {n : Nat} (h : isPow2 n = true) (a : Nat) : a &&& (n - 1) = a % n := by
  obtain ⟨k, rfl⟩ := isPow2_iff.mp h
  exact Nat.and_two_pow_sub_one_eq_mod ..

theorem nextPow2_isPow2 (n : Nat) : isPow2 (nextPow2 n) = true := by
  unfold nextPow2
  split
  · exact isPow2_two_pow 0
  · exact isPow2_two_pow _

theorem le_nextPow2 (n : Nat) : n ≤ nextPow2 n := by
  unfold nextPow2
  split
  · assumption
  · have := Nat.lt_log2_self (n := n - 1)
    omega

/-- An admitted node's size is a power of two (R24 to R26). -/
theorem size_isPow2 {c : Comp} (h : c.checked = true) : isPow2 c.size = true := by
  cases c with
  | rom _ _ image => simpa [Comp.checked, Comp.size] using h
  | ram _ _ size => simpa [Comp.checked, Comp.size] using h
  | map _ rs => simpa [Comp.size] using nextPow2_isPow2 rs.endAddr

@[simp] theorem hits_iff {base size m : Nat} : hits base size m = true ↔ base ≤ m ∧ m < base + size := by
  simp [hits]

@[simp] theorem overlaps_iff {b n b' n' : Nat} : overlaps b n b' n' = true ↔ b < b' + n' ∧ b' < b + n := by
  simp [overlaps]

@[simp] theorem locate_nil (m : Nat) : Regions.nil.locate m = .hole m := by simp [Regions.locate]

theorem locate_cons (b : Nat) (c : Comp) (rs : Regions) (m : Nat) :
    (Regions.cons b c rs).locate m = if hits b c.size m then c.locate (m - b) else rs.locate m := by
  simp [Regions.locate]

/-- A map masks, then routes (R181, R182). -/
theorem locate_map (o : ByteOrder) (rs : Regions) (a : Nat) :
    (Comp.map o rs).locate a = rs.locate (a &&& (Comp.map o rs).mask) := by
  simp [Comp.locate, Comp.mask, Comp.size]

theorem locate_rom (id : Nat) (o : ByteOrder) (image : List Byte) (a : Nat) :
    (Comp.rom id o image).locate a = .rom id (a &&& (image.length - 1)) (image.getD (a &&& (image.length - 1)) 0#8) := by
  simp [Comp.locate]

theorem locate_ram (id : Nat) (o : ByteOrder) (size a : Nat) :
    (Comp.ram id o size).locate a = .ram id (a &&& (size - 1)) := by
  simp [Comp.locate]

@[simp] theorem regions_toList_nil : Regions.nil.toList = [] := rfl

@[simp] theorem regions_toList_cons (b : Nat) (c : Comp) (rs : Regions) :
    (Regions.cons b c rs).toList = (b, c) :: rs.toList := rfl

@[simp] theorem endAddr_nil : Regions.nil.endAddr = 0 := by simp [Regions.endAddr]

@[simp] theorem endAddr_cons (b : Nat) (c : Comp) (rs : Regions) :
    (Regions.cons b c rs).endAddr = max (b + c.size) rs.endAddr := by simp [Regions.endAddr]

theorem size_map (o : ByteOrder) (rs : Regions) : (Comp.map o rs).size = nextPow2 rs.endAddr := by simp [Comp.size]

/-- The checks of a region list, clause by clause (R173, R174). -/
theorem checked_cons {b : Nat} {c : Comp} {rs : Regions} :
    (Regions.cons b c rs).checked = true ↔
      c.checked = true ∧ b &&& (c.size - 1) = 0 ∧
        (∀ r ∈ rs.toList, ¬ (b < r.1 + r.2.size ∧ r.1 < b + c.size)) ∧ rs.checked = true := by
  simp only [Regions.checked, Bool.and_eq_true, beq_iff_eq, List.all_eq_true, Bool.not_eq_eq_eq_not,
    Bool.not_true, ← Bool.not_eq_true, overlaps_iff]
  tauto

theorem checked_map {o : ByteOrder} {rs : Regions} : (Comp.map o rs).checked = true ↔ rs.checked = true := by
  simp [Comp.checked]

end Sys2Proof
end

