-- ==== Sys2Proof/Laws/Construct.lean ====
section
/-! SUPPORT. What each construction function can answer, said once, and the fields of a constructed state. -/

namespace Sys2Proof

@[simp] theorem bindings_toList_nil : Bindings.nil.toList = [] := rfl

@[simp] theorem bindings_toList_cons (base : Int) (child : Desc) (rest : Bindings) :
    (Bindings.cons base child rest).toList = (base, child) :: rest.toList := rfl

namespace Machine

/-! ## The constructed state -/

@[simp] theorem constructed_root (w n : Nat) (c : Comp) : (constructed w n c).root = c := rfl
@[simp] theorem constructed_addrW (w n : Nat) (c : Comp) : (constructed w n c).addrW = w := rfl
@[simp] theorem constructed_construction (w n : Nat) (c : Comp) : (constructed w n c).construction = n := rfl
@[simp] theorem constructed_ram (w n : Nat) (c : Comp) : (constructed w n c).ram = [] := rfl
@[simp] theorem constructed_fault (w n : Nat) (c : Comp) : (constructed w n c).fault = none := rfl
@[simp] theorem constructed_refused (w n : Nat) (c : Comp) : (constructed w n c).refused = false := rfl
@[simp] theorem constructed_requests (w n : Nat) (c : Comp) : (constructed w n c).requests = [] := rfl
@[simp] theorem constructed_responses (w n : Nat) (c : Comp) : (constructed w n c).responses = [] := rfl

/-! ## Leaves -/

@[simp] theorem romImage_length (cb pad : List Byte) (n : Nat) : (romImage cb pad n).length = n := by
  simp [romImage]

/-- A ROM that is built passed every check and holds the image of an admitted size. -/
theorem buildRom_ok {p : Params} {id : Nat} {content : Content} {size : Option Nat} {o : ByteOrder}
    {padding : Option (List Byte)} {c : Comp} (h : buildRom p id content size o padding = .ok c) :
    padding.getD p.romDefaultPad ≠ [] ∧ contentOutOfRange content = false ∧
    ∃ n, c = .rom id o (romImage (contentBytes o content) (padding.getD p.romDefaultPad) n) ∧
      isPow2 n = true ∧ (contentBytes o content).length ≤ n ∧
      n = size.getD (nextPow2 (contentBytes o content).length) := by
  simp only [buildRom] at h
  split at h
  · cases h
  next hpad =>
    split at h
    · cases h
    next hwide =>
      refine ⟨by simpa using hpad, by simpa using hwide, ?_⟩
      split at h
      · cases h
        exact ⟨_, rfl, nextPow2_isPow2 _, le_nextPow2 _, rfl⟩
      · split at h
        · cases h
        next hpow =>
          split at h
          · cases h
          next hlarge =>
            cases h
            exact ⟨_, rfl, by simpa using hpow, by simpa using hlarge, rfl⟩

/-- A RAM that is built has the asked or the default size, a power of two. -/
theorem buildRam_ok {p : Params} {id : Nat} {size : Option Nat} {o : ByteOrder} {c : Comp}
    (h : buildRam p id size o = .ok c) :
    isPow2 (size.getD p.ramDefaultSize) = true ∧ c = .ram id o (size.getD p.ramDefaultSize) := by
  unfold buildRam at h
  split at h
  next hpow => cases h; exact ⟨hpow, rfl⟩
  next => cases h

/-! ## Maps -/

/-- A binding passes its checks exactly when its base is natural, aligned and clear of the intervals before it. -/
theorem checkBinding_eq_ok {placed : List (Nat × Nat)} {base : Int} {size b : Nat} :
    checkBinding placed base size = .ok b ↔
      0 ≤ base ∧ base.toNat &&& (size - 1) = 0 ∧ (∀ r ∈ placed, overlaps base.toNat size r.1 r.2 = false) ∧
        b = base.toNat := by
  unfold checkBinding
  split
  next hneg => simp; omega
  next hneg =>
    split
    next hal => simp [hal]
    next hal =>
      split
      next hov =>
        simp only [reduceCtorEq, false_iff, not_and]
        intro _ _ hfree
        obtain ⟨r, hr, ho⟩ := List.any_eq_true.mp hov
        simp [hfree r hr] at ho
      next hov =>
        have hfree : ∀ r ∈ placed, overlaps base.toNat size r.1 r.2 = false := fun r hr =>
          Bool.eq_false_iff.mpr fun ho => hov (List.any_eq_true.mpr ⟨r, hr, ho⟩)
        constructor
        · intro h
          injection h with h
          exact ⟨by omega, by simpa using hal, hfree, h.symm⟩
        · rintro ⟨-, -, -, rfl⟩
          rfl

/-- A map that is built holds the regions its bindings were placed as. -/
theorem buildMap_eq_ok {o : ByteOrder} {children : List (Int × Comp)} {c : Comp} :
    buildMap o children = .ok c ↔ ∃ rs, placeAll [] children = .ok rs ∧ c = .map o rs := by
  unfold buildMap
  split
  next h => simp [h]
  next h => simp [h, eq_comm]

/-! ## The whole configuration -/

/-- A constructed state is the fresh state of a built tree of distinct storage objects that fits the port. -/
theorem construct_ok {p : Params} {n : Nat} {d : Desc} {s : State} (h : construct p n d = .ok s) :
    d.leafIds.Nodup ∧ ∃ c, d.build p = .ok c ∧ c.size ≤ 2 ^ p.addrW ∧ s = constructed p.addrW n c := by
  unfold construct at h
  split at h
  next hnodup =>
    split at h
    · cases h
    next c hc =>
      split at h
      · cases h
      next hfits => cases h; exact ⟨hnodup, c, hc, by omega, rfl⟩
  next => cases h

end Machine

end Sys2Proof
end

