-- ==== Sys2Proof/Laws/State.lean ====
section
/-! SUPPORT. What each update of the state leaves in each field: one lemma per field per update. -/

namespace Sys2Proof.Machine

variable (s : State)

@[simp] theorem setRamByte_root (r i : Nat) (v : Byte) : (s.setRamByte r i v).root = s.root := rfl
@[simp] theorem setRamByte_addrW (r i : Nat) (v : Byte) : (s.setRamByte r i v).addrW = s.addrW := rfl
@[simp] theorem setRamByte_construction (r i : Nat) (v : Byte) : (s.setRamByte r i v).construction = s.construction := rfl
@[simp] theorem setRamByte_ram (r i : Nat) (v : Byte) : (s.setRamByte r i v).ram = s.ram.write s.construction (ramKey r i) v := rfl
@[simp] theorem setRamByte_fault (r i : Nat) (v : Byte) : (s.setRamByte r i v).fault = s.fault := rfl
@[simp] theorem setRamByte_refused (r i : Nat) (v : Byte) : (s.setRamByte r i v).refused = s.refused := rfl
@[simp] theorem setRamByte_requests (r i : Nat) (v : Byte) : (s.setRamByte r i v).requests = s.requests := rfl
@[simp] theorem setRamByte_responses (r i : Nat) (v : Byte) : (s.setRamByte r i v).responses = s.responses := rfl

@[simp] theorem respond_root (q : Rsp) : (s.respond q).root = s.root := rfl
@[simp] theorem respond_addrW (q : Rsp) : (s.respond q).addrW = s.addrW := rfl
@[simp] theorem respond_construction (q : Rsp) : (s.respond q).construction = s.construction := rfl
@[simp] theorem respond_ram (q : Rsp) : (s.respond q).ram = s.ram := rfl
@[simp] theorem respond_fault (q : Rsp) : (s.respond q).fault = s.fault := rfl
@[simp] theorem respond_refused (q : Rsp) : (s.respond q).refused = s.refused := rfl
@[simp] theorem respond_requests (q : Rsp) : (s.respond q).requests = s.requests := rfl
@[simp] theorem respond_responses (q : Rsp) : (s.respond q).responses = s.responses ++ [q] := rfl

@[simp] theorem takeUnmapped_root (op : BitVec 3) (a : Nat) (e : Raise) : (s.takeUnmapped op a e).root = s.root := rfl
@[simp] theorem takeUnmapped_addrW (op : BitVec 3) (a : Nat) (e : Raise) : (s.takeUnmapped op a e).addrW = s.addrW := rfl
@[simp] theorem takeUnmapped_construction (op : BitVec 3) (a : Nat) (e : Raise) : (s.takeUnmapped op a e).construction = s.construction := rfl
@[simp] theorem takeUnmapped_ram (op : BitVec 3) (a : Nat) (e : Raise) : (s.takeUnmapped op a e).ram = s.ram := rfl
@[simp] theorem takeUnmapped_fault (op : BitVec 3) (a : Nat) (e : Raise) : (s.takeUnmapped op a e).fault = some (s.fault.getD (faultRecord op a e)) := rfl
@[simp] theorem takeUnmapped_refused (op : BitVec 3) (a : Nat) (e : Raise) : (s.takeUnmapped op a e).refused = s.refused := rfl
@[simp] theorem takeUnmapped_requests (op : BitVec 3) (a : Nat) (e : Raise) : (s.takeUnmapped op a e).requests = s.requests := rfl
@[simp] theorem takeUnmapped_responses (op : BitVec 3) (a : Nat) (e : Raise) : (s.takeUnmapped op a e).responses = s.responses ++ [rspUnmapped] := rfl

@[simp] theorem refuse_root : (s.refuse).root = s.root := rfl
@[simp] theorem refuse_addrW : (s.refuse).addrW = s.addrW := rfl
@[simp] theorem refuse_construction : (s.refuse).construction = s.construction := rfl
@[simp] theorem refuse_ram : (s.refuse).ram = s.ram := rfl
@[simp] theorem refuse_fault : (s.refuse).fault = s.fault := rfl
@[simp] theorem refuse_refused : (s.refuse).refused = true := rfl
@[simp] theorem refuse_requests : (s.refuse).requests = s.requests := rfl
@[simp] theorem refuse_responses : (s.refuse).responses = s.responses := rfl

@[simp] theorem dropRequest_root : (s.dropRequest).root = s.root := rfl
@[simp] theorem dropRequest_addrW : (s.dropRequest).addrW = s.addrW := rfl
@[simp] theorem dropRequest_construction : (s.dropRequest).construction = s.construction := rfl
@[simp] theorem dropRequest_ram : (s.dropRequest).ram = s.ram := rfl
@[simp] theorem dropRequest_fault : (s.dropRequest).fault = s.fault := rfl
@[simp] theorem dropRequest_refused : (s.dropRequest).refused = s.refused := rfl
@[simp] theorem dropRequest_requests : (s.dropRequest).requests = s.requests.tail := rfl
@[simp] theorem dropRequest_responses : (s.dropRequest).responses = s.responses := rfl

@[simp] theorem issue_root (ws : List Nat) : (s.issue ws).root = s.root := rfl
@[simp] theorem issue_addrW (ws : List Nat) : (s.issue ws).addrW = s.addrW := rfl
@[simp] theorem issue_construction (ws : List Nat) : (s.issue ws).construction = s.construction := rfl
@[simp] theorem issue_ram (ws : List Nat) : (s.issue ws).ram = s.ram := rfl
@[simp] theorem issue_fault (ws : List Nat) : (s.issue ws).fault = s.fault := rfl
@[simp] theorem issue_refused (ws : List Nat) : (s.issue ws).refused = s.refused := rfl
@[simp] theorem issue_requests (ws : List Nat) : (s.issue ws).requests = s.requests ++ ws := rfl
@[simp] theorem issue_responses (ws : List Nat) : (s.issue ws).responses = s.responses := rfl

@[simp] theorem issueNext_root (q : Req) : (s.issueNext q).root = s.root := rfl
@[simp] theorem issueNext_addrW (q : Req) : (s.issueNext q).addrW = s.addrW := rfl
@[simp] theorem issueNext_construction (q : Req) : (s.issueNext q).construction = s.construction := rfl
@[simp] theorem issueNext_ram (q : Req) : (s.issueNext q).ram = s.ram := rfl
@[simp] theorem issueNext_fault (q : Req) : (s.issueNext q).fault = s.fault := rfl
@[simp] theorem issueNext_refused (q : Req) : (s.issueNext q).refused = s.refused := rfl
@[simp] theorem issueNext_requests (q : Req) : (s.issueNext q).requests = q.toWord s.addrW :: s.requests := rfl
@[simp] theorem issueNext_responses (q : Req) : (s.issueNext q).responses = s.responses := rfl

end Sys2Proof.Machine
end

