-- ==== Sys2Proof/Laws/Memory.lean ====
section
/-! SUPPORT. RAM storage: no two bytes share a key, a read after a write, and every storage operation keeps the
canonical form. -/

namespace Sys2Proof.Machine

/-- Two RAM bytes with one storage key are the same byte. -/
@[simp] theorem ramKey_inj {r i r' i' : Nat} : ramKey r i = ramKey r' i' ↔ r = r' ∧ i = i' :=
  Nat.pair_eq_pair

/-! ## Reads -/

@[simp] theorem memory_read_nil (n k : Nat) : Memory.read n [] k = Memory.unlisted n k := rfl

theorem memory_lookup_insert_same (m : Memory) (k : Nat) (v : Byte) : (m.insert k v).lookup k = some v := by
  induction m with
  | nil => simp [Memory.insert, Memory.lookup]
  | cons c rest ih =>
    obtain ⟨k', w⟩ := c
    by_cases hlt : k < k'
    · simp [Memory.insert, Memory.lookup, hlt]
    · by_cases heq : k = k'
      · simp [Memory.insert, Memory.lookup, heq]
      · simp [Memory.insert, Memory.lookup, hlt, heq, Ne.symm heq, ih]

theorem memory_lookup_insert_other {k k' : Nat} (h : k' ≠ k) (m : Memory) (v : Byte) :
    (m.insert k v).lookup k' = m.lookup k' := by
  induction m with
  | nil => simp [Memory.insert, Memory.lookup, h.symm]
  | cons c rest ih =>
    obtain ⟨j, w⟩ := c
    by_cases hlt : k < j
    · simp [Memory.insert, Memory.lookup, hlt, h.symm]
    · by_cases heq : k = j
      · subst heq; simp [Memory.insert, Memory.lookup, h.symm]
      · simp [Memory.insert, Memory.lookup, hlt, heq, ih]

theorem memory_lookup_erase_same (m : Memory) (k : Nat) : (m.erase k).lookup k = none := by
  induction m with
  | nil => rfl
  | cons c rest ih =>
    obtain ⟨j, w⟩ := c
    by_cases h : j = k
    · simpa [Memory.erase, h] using ih
    · simpa [Memory.erase, Memory.lookup, h] using ih

theorem memory_lookup_erase_other {k k' : Nat} (h : k' ≠ k) (m : Memory) :
    (m.erase k).lookup k' = m.lookup k' := by
  induction m with
  | nil => rfl
  | cons c rest ih =>
    obtain ⟨j, w⟩ := c
    by_cases hj : j = k
    · subst hj; simpa [Memory.erase, Memory.lookup, h.symm] using ih
    · by_cases hk : j = k' <;> simp_all [Memory.erase, Memory.lookup]

/-- A byte written reads as written, whether or not it is its draw (R155). -/
@[simp] theorem memory_read_write_same (n : Nat) (m : Memory) (k : Nat) (v : Byte) :
    (m.write n k v).read n k = v := by
  by_cases h : v = Memory.unlisted n k
  · simp [Memory.write, Memory.read, h, memory_lookup_erase_same]
  · simp [Memory.write, Memory.read, h, memory_lookup_insert_same]

/-- A write leaves every other byte (R154). -/
theorem memory_read_write_other {k k' : Nat} (h : k' ≠ k) (n : Nat) (m : Memory) (v : Byte) :
    (m.write n k v).read n k' = m.read n k' := by
  unfold Memory.write Memory.read
  split
  · rw [memory_lookup_erase_other h]
  · rw [memory_lookup_insert_other h]

@[simp] theorem ramByte_setRamByte_same (s : State) (r i : Nat) (v : Byte) :
    (s.setRamByte r i v).ramByte r i = v :=
  memory_read_write_same ..

theorem ramByte_setRamByte_other {r i r' i' : Nat} (h : ¬ (r' = r ∧ i' = i)) (s : State) (v : Byte) :
    (s.setRamByte r i v).ramByte r' i' = s.ramByte r' i' :=
  memory_read_write_other (fun e => h (ramKey_inj.mp e)) ..

@[simp] theorem ramByte_respond (s : State) (q : Rsp) (r i : Nat) : (s.respond q).ramByte r i = s.ramByte r i := rfl

@[simp] theorem ramByte_takeUnmapped (s : State) (op : BitVec 3) (a : Nat) (e : Raise) (r i : Nat) :
    (s.takeUnmapped op a e).ramByte r i = s.ramByte r i := rfl

@[simp] theorem ramByte_dropRequest (s : State) (r i : Nat) : s.dropRequest.ramByte r i = s.ramByte r i := rfl

@[simp] theorem ramByte_refuse (s : State) (r i : Nat) : s.refuse.ramByte r i = s.ramByte r i := rfl

/-! ## The canonical form -/

theorem memory_mem_insert {c : Host.Cell} {m : Memory} {k : Nat} {v : Byte} (h : c ∈ m.insert k v) :
    c = (k, v) ∨ c ∈ m := by
  induction m with
  | nil => simpa [Memory.insert] using h
  | cons d rest ih =>
    obtain ⟨j, w⟩ := d
    unfold Memory.insert at h
    split at h
    · simpa using h
    · split at h
      · rcases List.mem_cons.mp h with h | h
        · exact .inl h
        · exact .inr (List.mem_cons_of_mem _ h)
      · rcases List.mem_cons.mp h with h | h
        · exact .inr (h ▸ List.mem_cons_self)
        · exact (ih h).imp id (List.mem_cons_of_mem _)

/-- What a write can leave listed: an entry it made, or one that was there. -/
theorem memory_mem_write {n : Nat} {c : Host.Cell} {m : Memory} {k : Nat} {v : Byte} (h : c ∈ m.write n k v) :
    (c = (k, v) ∧ v ≠ Memory.unlisted n k) ∨ c ∈ m := by
  unfold Memory.write at h
  split at h
  · exact .inr (List.mem_filter.mp h).1
  · exact (memory_mem_insert h).imp (fun e => ⟨e, ‹_›⟩) id

theorem memory_insert_sorted {m : Memory} (h : (m.map Prod.fst).Pairwise (· < ·)) (k : Nat) (v : Byte) :
    ((m.insert k v).map Prod.fst).Pairwise (· < ·) := by
  induction m with
  | nil => simp [Memory.insert]
  | cons d rest ih =>
    obtain ⟨j, w⟩ := d
    simp only [List.map_cons, List.pairwise_cons, List.mem_map, forall_exists_index, and_imp,
      forall_apply_eq_imp_iff₂] at h
    unfold Memory.insert
    split
    next hlt =>
      simp only [List.map_cons, List.pairwise_cons, List.mem_cons, List.mem_map, forall_eq_or_imp,
        forall_exists_index, and_imp, forall_apply_eq_imp_iff₂]
      exact ⟨⟨hlt, fun c hc => hlt.trans (h.1 c hc)⟩, h.1, h.2⟩
    next hlt =>
      split
      next heq => subst heq; simpa using h
      next hne =>
        simp only [List.map_cons, List.pairwise_cons, List.mem_map, forall_exists_index, and_imp,
          forall_apply_eq_imp_iff₂]
        refine ⟨fun c hc => ?_, ih h.2⟩
        rcases memory_mem_insert hc with rfl | hc
        · show j < k
          omega
        · exact h.1 c hc

/-- Removing an entry keeps the canonical form. -/
theorem memory_erase_wf {n : Nat} {m : Memory} (h : m.Wf n) (k : Nat) : (m.erase k).Wf n :=
  ⟨h.1.sublist (List.filter_sublist.map _), fun c hc => h.2 c (List.mem_filter.mp hc).1⟩

/-- Entering a byte that is not the draw keeps the canonical form. -/
theorem memory_insert_wf {n : Nat} {m : Memory} (h : m.Wf n) {k : Nat} {v : Byte}
    (hv : v ≠ Memory.unlisted n k) : (m.insert k v).Wf n := by
  refine ⟨memory_insert_sorted h.1 k v, fun c hc => ?_⟩
  rcases memory_mem_insert hc with rfl | hc
  · exact hv
  · exact h.2 c hc

/-- Every write keeps the canonical form. -/
theorem memory_write_wf {n : Nat} {m : Memory} (h : m.Wf n) (k : Nat) (v : Byte) : (m.write n k v).Wf n := by
  unfold Memory.write
  split
  · exact memory_erase_wf h k
  · exact memory_insert_wf h ‹_›

/-- The storage after reset has the canonical form. -/
theorem reset_memory_wf : State.reset.ram.Wf State.reset.construction := by
  simp [State.reset, Memory.Wf]

end Sys2Proof.Machine
end

