-- ==== Sys2Proof/Laws/Ops.lean ====
section
/-! SUPPORT. What each shared operation can do, said once: the byte primitives, the word adapter, a request and a
step. Later proofs cite these lemmas and do not unfold the operations. -/

namespace Sys2Proof.Machine

/-! ## Byte primitives -/

theorem readByteC_eq_error {s : State} {c : Comp} {a m : Nat} :
    readByteC s c a = .error m ↔ c.locate a = .hole m := by
  unfold readByteC
  split <;> simp_all

theorem readByteC_of_rom {s : State} {c : Comp} {a id i : Nat} {v : Byte} (h : c.locate a = .rom id i v) :
    readByteC s c a = .ok v := by
  simp [readByteC, h]

theorem readByteC_of_ram {s : State} {c : Comp} {a r i : Nat} (h : c.locate a = .ram r i) :
    readByteC s c a = .ok (s.ramByte r i) := by
  simp [readByteC, h]

theorem writeByteC_eq_error {s : State} {c : Comp} {a m : Nat} {v : Byte} :
    writeByteC s c a v = .error m ↔ c.locate a = .hole m := by
  unfold writeByteC
  split <;> simp_all

/-- What a byte write can do: nothing, on a ROM, or one storage byte of a RAM. -/
theorem writeByteC_cases {s s' : State} {c : Comp} {a : Nat} {v : Byte} (h : writeByteC s c a v = .ok s') :
    (∃ id i w, c.locate a = .rom id i w ∧ s' = s) ∨
    (∃ r i, c.locate a = .ram r i ∧ s' = s.setRamByte r i v) := by
  unfold writeByteC at h
  split at h
  next id i w e => exact .inl ⟨id, i, w, e, (Except.ok.inj h).symm⟩
  next r i e => exact .inr ⟨r, i, e, (Except.ok.inj h).symm⟩
  next => cases h

/-! ## The word adapter -/

theorem readOffset_eq_error {s : State} {c : Comp} {a : Nat} {i : Fin 4} {e : Raise} :
    readOffset s c a i = .error e ↔ e.byteIndex = i ∧ c.locate (byteAddr s.addrW a i) = .hole e.mapAddr := by
  unfold readOffset
  split
  next b hb =>
    constructor
    · intro h; cases h
    · rintro ⟨-, h⟩
      rw [← readByteC_eq_error (s := s), hb] at h
      cases h
  next m hm =>
    rw [readByteC_eq_error] at hm
    constructor
    · rintro ⟨⟩; exact ⟨rfl, hm⟩
    · rintro ⟨rfl, h⟩
      rw [hm] at h
      injection h with h
      subst h; rfl

theorem readOffset_eq_ok {s : State} {c : Comp} {a : Nat} {i : Fin 4} {b : Byte} :
    readOffset s c a i = .ok b ↔ readByteC s c (byteAddr s.addrW a i) = .ok b := by
  unfold readOffset
  split <;> simp_all

/-- A word read that succeeds packs its four bytes (R105). -/
theorem readWordC_eq_ok {s : State} {c : Comp} {a : Nat} {w : Word} :
    readWordC s c a = .ok w ↔ ∃ b0 b1 b2 b3,
      readOffset s c a 0 = .ok b0 ∧ readOffset s c a 1 = .ok b1 ∧ readOffset s c a 2 = .ok b2 ∧
        readOffset s c a 3 = .ok b3 ∧ w = pack c.order b0 b1 b2 b3 := by
  unfold readWordC
  constructor
  · intro h
    split at h <;> try cases h
    split at h <;> try cases h
    split at h <;> try cases h
    split at h <;> try cases h
    exact ⟨_, _, _, _, ‹_›, ‹_›, ‹_›, ‹_›, rfl⟩
  · rintro ⟨b0, b1, b2, b3, h0, h1, h2, h3, rfl⟩
    simp [h0, h1, h2, h3]

/-- A word read that fails reports the failing byte's own error (R107, R211). -/
theorem readWordC_eq_error {s : State} {c : Comp} {a : Nat} {e : Raise} (h : readWordC s c a = .error e) :
    c.locate (byteAddr s.addrW a e.byteIndex) = .hole e.mapAddr := by
  have key : ∀ i, readOffset s c a i = .error e → c.locate (byteAddr s.addrW a e.byteIndex) = .hole e.mapAddr := by
    intro i hi
    obtain ⟨rfl, hl⟩ := readOffset_eq_error.mp hi
    exact hl
  unfold readWordC at h
  split at h
  · cases h; exact key _ ‹_›
  split at h
  · cases h; exact key _ ‹_›
  split at h
  · cases h; exact key _ ‹_›
  split at h
  · cases h; exact key _ ‹_›
  cases h

/-- Byte writes change the RAM storage alone. -/
theorem writeByteC_frame {s s' : State} {c : Comp} {a : Nat} {v : Byte} (h : writeByteC s c a v = .ok s') :
    s' = { s with ram := s'.ram } := by
  rcases writeByteC_cases h with ⟨_, _, _, _, rfl⟩ | ⟨_, _, _, rfl⟩ <;> rfl

/-- Writes at word offsets change the RAM storage alone. -/
theorem writeOffsets_frame {c : Comp} {a : Nat} {l : List (Fin 4 × Byte)} {s t : State} {e : Option Raise}
    (h : writeOffsets c a l s = (t, e)) : t = { s with ram := t.ram } := by
  induction l generalizing s with
  | nil => cases h; rfl
  | cons p rest ih =>
    obtain ⟨i, b⟩ := p
    unfold writeOffsets at h
    split at h
    · cases h; rfl
    next s' hs' => rw [ih h, writeByteC_frame hs']

/-- A word write that fails reports the failing byte's own error (R107, R211). -/
theorem writeOffsets_error {c : Comp} {a : Nat} {l : List (Fin 4 × Byte)} {s t : State} {e : Raise}
    (h : writeOffsets c a l s = (t, some e)) : c.locate (byteAddr s.addrW a e.byteIndex) = .hole e.mapAddr := by
  induction l generalizing s with
  | nil => cases h
  | cons p rest ih =>
    obtain ⟨i, b⟩ := p
    unfold writeOffsets at h
    split at h
    next m hm => cases h; exact writeByteC_eq_error.mp hm
    next s' hs' =>
      have := ih h
      rwa [writeByteC_frame hs'] at this

/-- A property of states that every storage write through `c` keeps is kept by writes at word offsets. -/
theorem writeOffsets_induct {P : State → Prop} {c : Comp} {a : Nat}
    (step : ∀ s r i v a, P s → c.locate a = .ram r i → P (s.setRamByte r i v))
    {l : List (Fin 4 × Byte)} {s t : State} {e : Option Raise}
    (h : writeOffsets c a l s = (t, e)) (hs : P s) : P t := by
  induction l generalizing s with
  | nil => cases h; exact hs
  | cons p rest ih =>
    obtain ⟨i, b⟩ := p
    unfold writeOffsets at h
    split at h
    · cases h; exact hs
    next s' hs' =>
      refine ih h ?_
      rcases writeByteC_cases hs' with ⟨_, _, _, _, rfl⟩ | ⟨r, j, hl, rfl⟩
      · exact hs
      · exact step _ _ _ _ _ hs hl

/-! ## A request and a step -/

/-- The address operand of a request; 0 for `LEN`, which has none. -/
def requestAddr : Instr → Nat
  | .len => 0
  | .rb a => a
  | .wb a _ => a
  | .rw a => a
  | .ww a _ => a

/-- What a request can do: change RAM storage, through the root, and answer OK or take the error. -/
theorem exec_cases {i : Instr} {s t : State} (h : exec i s = .next t) :
    ∃ u : State, u = { s with ram := u.ram } ∧
      (∀ P : State → Prop, P s → (∀ s r j v a, P s → u.root.locate a = .ram r j → P (s.setRamByte r j v)) → P u) ∧
      ((∃ q : Rsp, q.status = statusOk ∧ (q.rlen = 0 ∨ q.rlen = s.root.size) ∧ t = u.respond q) ∨
       (∃ e : Raise, i ≠ .len ∧ (∀ a, i = .rb a ∨ (∃ v, i = .wb a v) → e.byteIndex = 0) ∧
          (∃ a, s.root.locate a = .hole e.mapAddr) ∧ t = u.takeUnmapped (opcode i) (requestAddr i) e)) := by
  cases i with
  | len =>
    cases h
    exact ⟨s, rfl, fun _ hs _ => hs, .inl ⟨_, rfl, .inr rfl, rfl⟩⟩
  | rb a =>
    simp only [exec, execRb] at h
    split at h <;> cases h
    · exact ⟨s, rfl, fun _ hs _ => hs, .inl ⟨_, rfl, .inl rfl, rfl⟩⟩
    next m hm =>
      exact ⟨s, rfl, fun _ hs _ => hs,
        .inr ⟨⟨0, m⟩, by simp, fun _ _ => rfl, ⟨a, readByteC_eq_error.mp hm⟩, rfl⟩⟩
  | wb a b =>
    simp only [exec, execWb] at h
    split at h <;> cases h
    next s' hs' =>
      refine ⟨s', writeByteC_frame hs', fun P hs step => ?_, .inl ⟨_, rfl, .inl rfl, rfl⟩⟩
      have hroot : s'.root = s.root := by rw [writeByteC_frame hs']
      rcases writeByteC_cases hs' with ⟨_, _, _, _, rfl⟩ | ⟨r, j, hl, rfl⟩
      · exact hs
      · exact step _ _ _ _ a hs (hroot ▸ hl)
    next m hm =>
      exact ⟨s, rfl, fun _ hs _ => hs,
        .inr ⟨⟨0, m⟩, by simp, fun _ _ => rfl, ⟨a, writeByteC_eq_error.mp hm⟩, rfl⟩⟩
  | rw a =>
    simp only [exec, execRw] at h
    split at h <;> cases h
    · exact ⟨s, rfl, fun _ hs _ => hs, .inl ⟨_, rfl, .inl rfl, rfl⟩⟩
    next e he =>
      exact ⟨s, rfl, fun _ hs _ => hs,
        .inr ⟨e, by simp, by simp, ⟨_, readWordC_eq_error he⟩, rfl⟩⟩
  | ww a w =>
    simp only [exec, execWw] at h
    split at h <;> cases h
    next s' hs' =>
      have hroot : s'.root = s.root := by rw [writeOffsets_frame hs']
      exact ⟨s', writeOffsets_frame hs',
        fun P hs step => writeOffsets_induct (fun s r i v a hP hl => step s r i v a hP (hroot ▸ hl)) hs' hs,
        .inl ⟨_, rfl, .inl rfl, rfl⟩⟩
    next s' e hs' =>
      have hroot : s'.root = s.root := by rw [writeOffsets_frame hs']
      exact ⟨s', writeOffsets_frame hs',
        fun P hs step => writeOffsets_induct (fun s r i v a hP hl => step s r i v a hP (hroot ▸ hl)) hs' hs,
        .inr ⟨e, by simp, by simp, ⟨_, writeOffsets_error hs'⟩, rfl⟩⟩

/-- What a step can do: it runs the next request, or refuses it (R110). -/
theorem step_cases {s t : State} (h : step s = .next t) :
    s.fault = none ∧ s.refused = false ∧ ∃ w rest, s.requests = w :: rest ∧
      ((∃ i, decode s.addrW w = .ok i ∧ exec i s.dropRequest = .next t) ∨
       (∃ e, decode s.addrW w = .error e ∧ t = s.dropRequest.refuse)) := by
  unfold step State.port at h
  split at h
  next heq => cases h
  next heq => cases h
  next heq => cases h
  next w heq =>
    split at heq <;> cases heq
    next hf hr hq =>
      refine ⟨hf, hr, w, _, hq, ?_⟩
      split at h
      next i hi => exact .inl ⟨i, hi, h⟩
      next e he => cases h; exact .inr ⟨e, he, rfl⟩

end Sys2Proof.Machine
end

