-- ==== Sys2Proof/Laws/PerInstr.lean ====
section
/-! SUPPORT. A law of every request, one lemma per constructor of `Instr`: the packed word of a request, of any
address, is a word of `ADDR_W + 35` bits (R81). -/

namespace Sys2Proof.Laws

/-- Every packed request is a word of `ADDR_W + 35` bits. -/
def EncodeFits.Statement (i : Instr) : Prop := ∀ addrW, encode addrW i < 2 ^ (addrW + 35)

/-- A packed word of fields in range has `ADDR_W + 35` bits. -/
theorem toWord_lt (addrW : Nat) (r : Req) : r.toWord addrW < 2 ^ (addrW + 35) := by
  have h1 := r.op.isLt
  have h2 := Nat.mod_lt r.addr (Nat.two_pow_pos addrW)
  have h3 := r.wdata.isLt
  unfold Req.toWord
  have e1 : 2 ^ (addrW + 32) = 2 ^ addrW * 4294967296 := by rw [Nat.pow_add]
  have e2 : 2 ^ (addrW + 35) = 2 ^ addrW * 34359738368 := by rw [Nat.pow_add]
  rw [e1, e2]
  have h4 : r.op.toNat * (2 ^ addrW * 4294967296) ≤ 7 * (2 ^ addrW * 4294967296) :=
    Nat.mul_le_mul_right _ (by omega)
  omega

theorem EncodeFits.len : EncodeFits.Statement .len := fun n => toWord_lt n _

theorem EncodeFits.rb (a : Nat) : EncodeFits.Statement (.rb a) := fun n => toWord_lt n _

theorem EncodeFits.wb (a : Nat) (b : Byte) : EncodeFits.Statement (.wb a b) := fun n => toWord_lt n _

theorem EncodeFits.rw (a : Nat) : EncodeFits.Statement (.rw a) := fun n => toWord_lt n _

theorem EncodeFits.ww (a : Nat) (w : Word) : EncodeFits.Statement (.ww a w) := fun n => toWord_lt n _

end Sys2Proof.Laws
end

