-- ==== Sys2Proof/Machine/Script.lean ====
section
/-! DEFINITION. The notation of test vectors: a request as a script line (R88) and a configuration as a tree (R89).
Numbers are decimal (R10); a storage object's name is `c` and its number; a map has no name, since nothing refers
to it. -/

namespace Sys2Proof

/-- A script line (R88). -/
def Instr.script : Instr → String
  | .len => "LEN"
  | .rb addr => "RB " ++ toString addr
  | .wb addr byte => "WB " ++ toString addr ++ ", " ++ toString byte.toNat
  | .rw addr => "RW " ++ toString addr
  | .ww addr word => "WW " ++ toString addr ++ ", " ++ toString word.toNat

/-- The name of a byte order (R89). -/
def ByteOrder.script : ByteOrder → String
  | .big => "order=big"
  | .little => "order=little"

/-- A list in square brackets (R89). -/
def listScript (xs : List Nat) : String := "[" ++ String.intercalate ", " (xs.map toString) ++ "]"

/-- An optional `size` (R89). -/
def sizeScript : Option Nat → String
  | none => ""
  | some n => " size=" ++ toString n

/-- An optional `pad` (R89). -/
def padScript : Option (List Byte) → String
  | none => ""
  | some bs => " pad=" ++ listScript (bs.map BitVec.toNat)

/-- The content of a ROM (R89). -/
def contentScript : Content → String
  | .bytes bs => " bytes=" ++ listScript (bs.map BitVec.toNat)
  | .words ws => " words=" ++ listScript ws

mutual

/-- A configuration tree (R89). -/
def Desc.script : Desc → String
  | .rom id content size order padding =>
    "ROM c" ++ toString id ++ " " ++ order.script ++ sizeScript size ++ padScript padding ++ contentScript content
  | .ram id size order => "RAM c" ++ toString id ++ " " ++ order.script ++ sizeScript size
  | .map order mapping =>
    "MAP " ++ order.script ++ " " ++ String.singleton (Char.ofNat 123) ++ mapping.script ++
      " " ++ String.singleton (Char.ofNat 125)

/-- The bindings of a map, separated by commas (R89). -/
def Bindings.script : Bindings → String
  | .nil => ""
  | .cons base child .nil => " " ++ toString base ++ ": " ++ child.script
  | .cons base child rest => " " ++ toString base ++ ": " ++ child.script ++ "," ++ rest.script

end

end Sys2Proof
end

