-- ==== Sys2Proof/Tests/Slice0.lean ====
section
/-! SUPPORT. The model's own tests. Expected results come from spec/95_test_vectors.md (the vector is named in the
test's docstring) or are worked out by hand from the rule named there. Each `witness_<Name>` shows a concrete state and
operands that meet the hypotheses of the statement `<Name>`, one for each clause. -/

namespace Sys2Proof.Tests

open Sys2Proof.Machine

/-! ## Helpers -/

/-- The next state of an outcome, if it is one. -/
def nextOf : Host.Outcome State Fault Refusal → Option State
  | .next s => some s
  | .fault _ => none
  | .refused _ => none

/-- The reset state with another component tree. -/
def onRoot (c : Comp) : State := { State.reset with root := c }

/-- The responses after one request. -/
def responses (i : Instr) (s : State) : Option (List Rsp) := (nextOf (exec i s)).map State.responses

/-- The fault record after one request. -/
def faultAfter (i : Instr) (s : State) : Option FaultRecord := (nextOf (exec i s)).bind State.fault

/-- Configuration H of §2.9: a RAM of four bytes at 4 in a space of eight. -/
def holed (o : ByteOrder) : Comp := .map o (.cons 4 (.ram 0 .big 4) .nil)

/-- Configuration G of §2.6: a RAM and a nested little-endian map. -/
def nested : Comp :=
  .map .big (.cons 0 (.ram 0 .big 8) (.cons 8 (.map .little (.cons 4 (.ram 1 .little 4) .nil)) .nil))

/-- Construction of a tree with the spec's example width. -/
def built (d : Desc) : Except ConfigError State := construct { addrW := 16 } 0 d

/-- A map description over a list of bindings. -/
def mapOf (o : ByteOrder) (l : List (Int × Desc)) : Desc := .map o (l.foldr (fun x r => .cons x.1 x.2 r) .nil)

/-- A big-endian RAM description. -/
def ramOf (id n : Nat) : Desc := .ram id (some n) .big

/-! ## Well-formedness: an ill-formed term for each check, and the boundary that passes -/

theorem test_wellFormed_len : Instr.WellFormed 16 .len := by decide
theorem test_wellFormed_rb_refuses : ¬ Instr.WellFormed 16 (.rb 0x10000) := by decide
theorem test_wellFormed_wb_refuses : ¬ Instr.WellFormed 16 (.wb 0x10000 0#8) := by decide
theorem test_wellFormed_rw_refuses : ¬ Instr.WellFormed 16 (.rw 0x10000) := by decide
theorem test_wellFormed_ww_refuses : ¬ Instr.WellFormed 16 (.ww 0x10000 0#32) := by decide
theorem test_wellFormed_top_address : Instr.WellFormed 16 (.ww 0xFFFF 0#32) := by decide

/-! ## Decoding: each word written out field by field from R81 and R83 -/

/-- op 000, V-ENC-1. -/
theorem test_decode_len :
    decode 16 0b000_0000000000000000_00000000000000000000000000000000 = .ok .len := by decide
/-- op 001, addr 0x000D, V-ENC-2. -/
theorem test_decode_rb :
    decode 16 0b001_0000000000001101_00000000000000000000000000000000 = .ok (.rb 0x000D) := by decide
/-- op 010, addr 0x0006, wdata[7:0] = 0xAB, V-ENC-3. -/
theorem test_decode_wb :
    decode 16 0b010_0000000000000110_00000000000000000000000010101011 = .ok (.wb 0x0006 0xAB#8) := by decide
/-- op 011, addr 0x0002, V-ENC-4. -/
theorem test_decode_rw :
    decode 16 0b011_0000000000000010_00000000000000000000000000000000 = .ok (.rw 0x0002) := by decide
/-- op 100, addr 0x0000, wdata = 0x11223344, V-ENC-5. -/
theorem test_decode_ww :
    decode 16 0b100_0000000000000000_00010001001000100011001101000100 = .ok (.ww 0x0000 0x11223344#32) := by decide
/-- The reserved codes, V-ENC-6, V-ENC-7, and 110. -/
theorem test_decode_reserved :
    decode 16 0x5FFFFFFFFFFFF = .error .reservedCommand ∧ decode 16 0x6000000000000 = .error .reservedCommand ∧
      decode 16 0x7000000000000 = .error .reservedCommand := by decide
/-- V-ENC-8. -/
theorem test_decode_wide_byte : decode 16 0x20000000001AB = .error .byteValueTooWide := by decide
/-- V-ENC-9: `wdata` is ignored. -/
theorem test_decode_ignores_wdata : decode 16 0x10003FFFFFFFF = .ok (.rb 0x0003) := by decide
/-- Another address width moves `op` and `addr` (R81): with `ADDR_W = 8`, `op` is in bits 42 to 40. -/
theorem test_decode_other_width : decode 8 0x30200000000 = .ok (.rw 0x02) := by decide
theorem test_encode_words :
    [.len, .rb 0xD, .wb 6 0xAB#8, .rw 2, .ww 0 0x11223344#32].map (encode 16) =
      [0x0, 0x1000D00000000, 0x20006000000AB, 0x3000200000000, 0x4000011223344] := by decide
theorem test_tableWord : decodeTableWord 56 0x40000CAFEBABE = some (.ww 0 0xCAFEBABE#32) := by decide
theorem test_fetch_runs_the_table_word :
    (nextOf (step (State.reset.withFetchWord 56 0x3000800000000))).map State.responses =
      some [⟨0b00#2, 0xEFBEADDE#32, 0⟩] := by decide

/-! ## The requests, at most two each -/

/-- P2, request 7. -/
theorem test_len : responses .len State.reset = some [⟨0b00#2, 0#32, 16⟩] := by decide
/-- V-LEN-2. -/
theorem test_len_empty_map : responses .len (onRoot (.map .big .nil)) = some [⟨0b00#2, 0#32, 1⟩] := by decide
/-- P2, request 5: the address wraps and reaches the ROM. -/
theorem test_rb : responses (.rb 0x0018) State.reset = some [⟨0b00#2, 0xDE#32, 0⟩] := by decide
/-- V-GRD-4: a hole of the inner map. -/
theorem test_rb_hole : faultAfter (.rb 0x000B) (onRoot nested) = some ⟨.unmappedAddress, 1#3, 0x000B, 0, 3⟩ := by decide
/-- V-WB-1. -/
theorem test_wb : (nextOf (exec (.wb 7 0x99#8) (onRoot (.ram 0 .big 4)))).map (fun t => t.ramByte 0 3) =
    some 0x99#8 := by
  simp [exec, execWb, writeByteC, locate_ram, onRoot, nextOf]
/-- V-WB-2: a ROM discards the write. -/
theorem test_wb_rom : (nextOf (exec (.wb 8 0xFF#8) State.reset)).map (fun t => (t.ram, t.responses)) =
    some ([], [⟨0b00#2, 0#32, 0⟩]) := by decide
/-- P2, request 2: the map's little order, not the ROM's big one. -/
theorem test_rw : responses (.rw 8) State.reset = some [⟨0b00#2, 0xEFBEADDE#32, 0⟩] := by decide
/-- V-RW-7: the first hole is at offset 2. -/
theorem test_rw_hole : faultAfter (.rw 6) (onRoot (holed .big)) = some ⟨.unmappedAddress, 3#3, 6, 2, 0⟩ := by decide
/-- V-WW-7: on two bytes the later offsets stand. -/
theorem test_ww : (nextOf (exec (.ww 0 0x11223344#32) (onRoot (.ram 0 .big 2)))).map
    (fun t => (t.ramByte 0 0, t.ramByte 0 1)) = some (0x33#8, 0x44#8) := by
  simp [exec, execWw, writeWordC, unpackList, writeOffsets, writeByteC, locate_ram, onRoot, nextOf, byteAddr,
    ramByte_setRamByte_other, State.reset, unpack, byteAt, Comp.order]
/-- V-WW-2: the fault is at offset 3. -/
theorem test_ww_hole : faultAfter (.ww 5 0x11223344#32) (onRoot (holed .big)) =
    some ⟨.unmappedAddress, 4#3, 5, 3, 0⟩ := by decide

/-! ## Routing, byte order and construction -/

/-- V-GRD-1 to V-GRD-8. -/
theorem test_locate_nested : [0x3, 0x7, 0x8, 0xB, 0xC, 0xF, 0x1D, 0xFFFF].map nested.locate =
    [.ram 0 3, .ram 0 7, .hole 0, .hole 3, .ram 1 0, .ram 1 3, .ram 1 1, .ram 1 3] := by decide
/-- V-ORD-1 to V-ORD-4. -/
theorem test_byte_order :
    (unpackList .big 0x12345678#32).map Prod.snd = [0x12#8, 0x34#8, 0x56#8, 0x78#8] ∧
    (unpackList .little 0x12345678#32).map Prod.snd = [0x78#8, 0x56#8, 0x34#8, 0x12#8] ∧
    pack .big 0x12#8 0x34#8 0x56#8 0x78#8 = 0x12345678#32 ∧
    pack .little 0x12#8 0x34#8 0x56#8 0x78#8 = 0x78563412#32 := by decide
/-- S3: the padding phase continues from byte offset 0. -/
theorem test_rom_padding : buildRom { addrW := 16 } 0 (.bytes [1#8, 2#8, 3#8]) (some 8) .big (some [0xAA#8, 0xBB#8]) =
    .ok (.rom 0 .big [0x01#8, 0x02#8, 0x03#8, 0xBB#8, 0xAA#8, 0xBB#8, 0xAA#8, 0xBB#8]) := by decide
/-- V-ROM-8 and V-ROM-2. -/
theorem test_rom_sizes :
    buildRom { addrW := 16 } 0 (.words [0x11223344, 0x55667788]) none .little none =
      .ok (.rom 0 .little [0x44#8, 0x33#8, 0x22#8, 0x11#8, 0x88#8, 0x77#8, 0x66#8, 0x55#8]) ∧
    buildRom { addrW := 16 } 0 (.bytes []) none .big none = .ok (.rom 0 .big [0xFF#8]) := by decide
/-- V-ROM-5, V-ROM-13, V-ROM-14, V-ROM-15. -/
theorem test_rom_errors :
    built (.rom 0 (.bytes [0#8, 0#8]) (some 6) .big none) = .error .invalidSize ∧
    built (.rom 0 (.words [0x100000000]) none .big none) = .error .wordValueOutOfRange ∧
    built (.rom 0 (.bytes [1#8, 2#8, 3#8]) (some 6) .big (some [])) = .error .emptyPadding ∧
    built (.rom 0 (.bytes [1#8, 2#8, 3#8]) (some 2) .big none) = .error .contentTooLarge := by decide
/-- V-RAM-1, V-RAM-2. -/
theorem test_ram_sizes :
    buildRam { addrW := 16 } 0 none .big = .ok (.ram 0 .big 256) ∧ built (ramOf 0 0) = .error .invalidSize := by decide
/-- V-MAP-9 to V-MAP-15 and V-MAP-18. -/
theorem test_map_errors :
    built (mapOf .big [(0, ramOf 0 8), (4, ramOf 1 4)]) = .error .overlappingRegion ∧
    built (mapOf .big [(3, ramOf 0 4), (0, ramOf 1 8)]) = .error .invalidAlignment ∧
    built (mapOf .big [(0, ramOf 0 8), (5, ramOf 1 4)]) = .error .invalidAlignment ∧
    built (mapOf .big [(0, ramOf 0 4), (4, ramOf 0 4)]) = .error .componentAliased ∧
    built (mapOf .big [(-4, ramOf 0 4)]) = .error .negativeBase ∧
    built (mapOf .big [(4, mapOf .big [(4, ramOf 0 4)])]) = .error .invalidAlignment := by decide
/-- V-MAP-19. -/
theorem test_port_too_narrow :
    construct { addrW := 12 } 0 (mapOf .big [(0, ramOf 0 256), (0x1000, ramOf 1 16)]) =
      .error .addressWidthTooSmall := by decide
/-- V-LEN-4: a root of exactly `2^ADDR_W` bytes is constructed. -/
theorem test_port_exactly_wide :
    (built (ramOf 0 65536)).toOption.bind (responses .len) = some [⟨0b00#2, 0#32, 0x10000⟩] := by decide
/-- R212 step 2: the second child's error comes before the misaligned base of the first binding. -/
theorem test_child_error_before_binding_error :
    built (mapOf .big [(3, ramOf 0 4), (8, ramOf 1 3)]) = .error .invalidSize := by decide
/-- V-MAP-2, V-MAP-3, V-MAP-7, V-MAP-8. -/
theorem test_map_sizes :
    (Comp.map .big (.cons 12 (.ram 0 .big 4) .nil)).size = 16 ∧
    (Comp.map .big (.cons 8 (.ram 0 .big 4) .nil)).size = 16 ∧
    (Comp.map .big (.cons 0 (.ram 0 .big 256) (.cons 0x1000 (.ram 1 .big 16) .nil))).size = 0x2000 ∧
    (Comp.map .big .nil).size = 1 := by decide
/-- R29, R201 to R205. -/
theorem test_numbers :
    orderBit .big = 0#1 ∧ orderBit .little = 1#1 ∧ faultNumber .unmappedAddress = 1 ∧
    [ConfigError.invalidSize, .invalidAlignment, .overlappingRegion, .contentTooLarge, .negativeBase].map configCode =
      [some 1, some 2, some 3, some 4, none] := by decide
/-- R88 and R89. -/
theorem test_script :
    Instr.script (.wb 6 0xAB#8) = "WB 6, 171" ∧
    (Desc.rom 1 (.bytes [1#8]) none .little (some [2#8, 3#8])).script =
      "ROM c1 order=little pad=[2, 3] bytes=[1]" := by decide

/-! ## Witnesses of the statements' hypotheses -/

theorem witness_DecodeInvertsEncode :
    Instr.WellFormed 16 (.ww 0xFFFF 0xFFFFFFFF#32) ∧ Instr.WellFormed 16 (.wb 0xFFFF 0xFF#8) ∧
      Instr.WellFormed 16 (.rb 0) ∧ Instr.WellFormed 16 (.rw 0xFFFF) ∧ Instr.WellFormed 0 .len := by decide

theorem witness_EncodedRequestHasItsFieldsInPlace : 0xFFFF < 2 ^ 16 := by decide

theorem witness_EveryRequestWordIsARequestOrANamedRefusal :
    decode 16 0x1000000000000 = .ok (.rb 0) ∧ 5 ≤ 0x5000000000000 / 2 ^ (16 + 32) % 8 ∧
      (0x2000000000100 / 2 ^ (16 + 32) % 8 = 2 ∧ 256 ≤ 0x2000000000100 % 2 ^ 32) := by decide

theorem witness_DecodedOperandsAreTheRequestFields :
    0x0FFFFFFFFFFFF / 2 ^ (16 + 32) % 8 = 0 ∧ 0x1FFFF00000000 / 2 ^ (16 + 32) % 8 = 1 ∧
      (0x20000000000FF / 2 ^ (16 + 32) % 8 = 2 ∧ 0x20000000000FF % 2 ^ 32 < 256) ∧
      0x3000000000000 / 2 ^ (16 + 32) % 8 = 3 ∧ 0x4FFFFFFFFFFFF / 2 ^ (16 + 32) % 8 = 4 := by decide

/-- The reset state with requests issued. -/
def waiting (ws : List Nat) : State := { State.reset with requests := ws }

theorem witness_StepRunsTheRequestOnThePort :
    (waiting [0x3000800000000, 0]).fault = none ∧ (waiting [0x3000800000000, 0]).refused = false ∧
      (waiting [0x3000800000000, 0]).requests = 0x3000800000000 :: [0] ∧ decode 16 0x3000800000000 = .ok (.rw 8) := by
  decide

theorem witness_RefusedRequestOnlySetsTheMark :
    (waiting [0x5000000000000]).fault = none ∧ (waiting [0x5000000000000]).refused = false ∧
      (waiting [0x5000000000000]).requests = 0x5000000000000 :: [] ∧
      decode 16 0x5000000000000 = .error .reservedCommand ∧ decode 16 0x2000000000100 = .error .byteValueTooWide := by
  decide

theorem witness_NoStepOnceTheRunIsOver :
    { State.reset with fault := some ⟨.unmappedAddress, 1#3, 5, 0, 5⟩ }.fault ≠ none ∧
      ({ State.reset with refused := true }.fault = none ∧ { State.reset with refused := true }.refused = true) ∧
      (State.reset.fault = none ∧ State.reset.refused = false ∧ State.reset.requests = []) := by
  decide

theorem waiting_inv (ws : List Nat) : (waiting ws).Inv where
  root_valid := (by decide : resetRoot.Valid)
  root_fits := (by decide : resetRoot.size ≤ 2 ^ 16)
  ram_wf := reset_memory_wf
  ram_owned := by simp [waiting, State.reset]
  one_end := by simp [waiting, State.reset]
  fault_legal := by simp [waiting, State.reset]
  rsp_legal := by simp [waiting, State.reset]
  rsp_ok := by simp [waiting, State.reset]
  rsp_fault := by simp [waiting, State.reset]

/-- A step that stores, one that takes the error, and one that refuses, from states that meet the invariant. -/
theorem witness_StepKeepsTheInvariant :
    (∃ s t : State, s.Inv ∧ step s = .next t ∧ t.responses = [⟨0b00#2, 0#32, 0⟩]) ∧
    (∃ s t : State, s.Inv ∧ step s = .next t ∧ t.fault ≠ none) ∧
    (∃ s t : State, s.Inv ∧ step s = .next t ∧ t.refused = true) :=
  ⟨⟨waiting [0x40000CAFEBABE], _, waiting_inv _, rfl, rfl⟩,
    ⟨waiting [0x3000500000000], _, waiting_inv _, rfl, nofun⟩,
    ⟨waiting [0x7000000000000], _, waiting_inv _, rfl, rfl⟩⟩

theorem witness_ConstructionMeetsTheInvariant :
    (match built (mapOf .big [(4, ramOf 0 4), (0, ramOf 1 4)]) with | .ok s => s.root.size | .error _ => 0) = 8 := by
  decide

theorem witness_ConfigurationIsNeverChanged :
    ∃ s t : State, exec (.ww 0 0xCAFEBABE#32) s = .next t ∧ step (waiting [0x40000CAFEBABE]) = .next t :=
  ⟨(waiting [0x40000CAFEBABE]).dropRequest, _, rfl, rfl⟩

theorem witness_OnlyWriteRequestsChangeRam :
    (∃ t, exec (.rb 5) State.reset = .next t) ∧ (∃ t, exec .len State.reset = .next t) ∧
      (∃ t, step (waiting [0x5000000000000]) = .next t ∧ t.refused = true) :=
  ⟨⟨_, rfl⟩, ⟨_, rfl⟩, ⟨_, rfl, rfl⟩⟩

/-- A state whose run is over by an error, in front of a second error. -/
def faulted : State := { State.reset with fault := some ⟨.unmappedAddress, 1#3, 5, 0, 5⟩ }

theorem witness_FaultAndRefusalStayOnceSet :
    ∃ t, exec (.rw 12) faulted = .next t ∧ faulted.fault = some ⟨.unmappedAddress, 1#3, 5, 0, 5⟩ :=
  ⟨_, rfl, rfl⟩

theorem witness_NoErrorOnARomOrRamRootNorForLen :
    (∃ t, exec .len State.reset = .next t) ∧
      (∃ t, exec (.rw 3) (onRoot (.rom 0 .big [1#8, 2#8])) = .next t) ∧
      (∃ t, exec (.ww 3 0#32) (onRoot (.ram 0 .big 2)) = .next t) :=
  ⟨⟨_, rfl⟩, ⟨_, rfl⟩, ⟨_, rfl⟩⟩

theorem witness_RunThatEndedWellAnsweredEveryRequest :
    ∃ t : State, (waiting [0x3000800000000, 0]).responses = [] ∧
      Sys2Proof.core.run (waiting [0x3000800000000, 0]).requests.length (waiting [0x3000800000000, 0]) = .next t ∧
      t.EndedWell :=
  ⟨_, rfl, rfl, rfl, rfl, rfl⟩

theorem witness_LenAnswersTheSizeOfTheRoot :
    0x0FFFFFFFFFFFF / 2 ^ (16 + 32) % 8 = 0 ∧ (onRoot (.map .big .nil)).root = .map .big .nil ∧
      (onRoot (.map .big (.cons 0 (.ram 0 .big 4) (.cons 4 (.ram 1 .big 4) .nil)))).root =
        .map .big (.cons 0 (.ram 0 .big 4) (.cons 4 (.ram 1 .big 4) .nil)) ∧
      { onRoot (.ram 0 .big 0x10000) with addrW := 16 }.root.size ≤ 2 ^ 16 := by
  decide

/-- The top byte of each region of the reset map, through a wrapped address. -/
theorem witness_ByteReadAnswersTheByteReached :
    State.reset.root.locate 0x1B = .rom 1 3 0xEF#8 ∧ State.reset.root.locate 0xFFF3 = .ram 0 3 := by decide

theorem witness_ByteWriteStoresInRamAndIsDiscardedByRom :
    State.reset.root.locate 3 = .ram 0 3 ∧ State.reset.root.locate 8 = .rom 1 0 0xDE#8 := by decide

/-- A word in the ROM, and one that straddles two RAMs: both meet the hypothesis. -/
theorem witness_WordReadAnswersTheFourBytesPacked :
    ∃ b : Fin 4 → Byte, ∀ k, (∃ id i, State.reset.target 8 k = .rom id i (b k)) ∨
      (∃ r i, State.reset.target 8 k = .ram r i ∧ State.reset.ramByte r i = b k) :=
  ⟨fun k => [0xDE#8, 0xAD#8, 0xBE#8, 0xEF#8].getD k.val 0#8, fun k => .inl ⟨1, k.val, by revert k; decide⟩⟩

/-- A word from RAM into ROM across a region boundary of V-WW-4, and one that meets itself on two bytes. -/
theorem witness_WordWriteStoresItsFourBytesInOffsetOrder :
    (∀ k, ((onRoot (.map .big (.cons 0 (.ram 0 .big 4) (.cons 4 (.rom 1 .big [1#8, 2#8, 3#8, 4#8]) .nil)))).target
      2 k).isHole = false) ∧ ∀ k, ((onRoot (.ram 0 .big 2)).target 1 k).isHole = false := by decide

theorem witness_ByteAccessToAHoleTakesUnmappedAddress :
    State.reset.fault = none ∧ State.reset.root.locate 4 = .hole 4 ∧ State.reset.root.locate 15 = .hole 15 := by decide

/-- A first hole at each of the four offsets: V-RW-5, V-RW-6, V-RW-7, V-RW-8. -/
theorem witness_WordReadStopsAtTheFirstHole :
    (onRoot (holed .big)).fault = none ∧
    ((onRoot (holed .big)).target 2 0 = .hole 2) ∧
    ((∀ j, j < 1 → ((onRoot (holed .big)).target 7 j).isHole = false) ∧ (onRoot (holed .big)).target 7 1 = .hole 0) ∧
    ((∀ j, j < 2 → ((onRoot (holed .big)).target 6 j).isHole = false) ∧ (onRoot (holed .big)).target 6 2 = .hole 0) ∧
    ((∀ j, j < 3 → ((onRoot (holed .big)).target 5 j).isHole = false) ∧
      (onRoot (holed .big)).target 5 3 = .hole 0) := by
  decide

theorem witness_WordWriteIntoAHoleKeepsTheEarlierBytes :
    (onRoot (holed .big)).fault = none ∧
    ((∀ j, j < 0 → ((onRoot (holed .big)).target 3 j).isHole = false) ∧ (onRoot (holed .big)).target 3 0 = .hole 3) ∧
    ((∀ j, j < 3 → ((onRoot (holed .big)).target 5 j).isHole = false) ∧
      (onRoot (holed .big)).target 5 3 = .hole 0) := by
  decide

theorem witness_RomReadReturnsTheImageByte : isPow2 [0xFF#8].length = true ∧ isPow2 [1#8, 2#8].length = true := by
  decide

theorem witness_MapByteAccessRoutesToTheChild :
    (Regions.cons 4 (.ram 0 .big 4) .nil).route (0xC &&& ((holed .big).size - 1)) = some (4, .ram 0 .big 4) ∧
      (Regions.cons 4 (.ram 0 .big 4) .nil).route (0xB &&& ((holed .big).size - 1)) = none := by decide

theorem witness_RouterAnswersTheOneRegionThatHits :
    (Regions.cons 4 (.ram 0 .big 4) (.cons 0 (.ram 1 .big 4) .nil)).checked = true ∧
      (Regions.cons 4 (.ram 0 .big 4) (.cons 0 (.ram 1 .big 4) .nil)).route 4 = some (4, .ram 0 .big 4) ∧
      (Regions.cons 4 (.ram 0 .big 4) (.cons 0 (.ram 1 .big 4) .nil)).route 3 = some (0, .ram 1 .big 4) ∧
      (Regions.cons 4 (.ram 0 .big 4) (.cons 0 (.ram 1 .big 4) .nil)).route 8 = none := by decide

theorem witness_GuardComparesTheHighAddressBits : 8 &&& (2 ^ 3 - 1) = 0 ∧ 5 &&& (2 ^ 0 - 1) = 0 := by decide

theorem witness_EveryByteOfEveryChildIsReached :
    (Regions.cons 4 (.ram 0 .big 4) .nil).checked = true ∧
      (4, Comp.ram 0 .big 4) ∈ (Regions.cons 4 (.ram 0 .big 4) .nil).toList ∧ 3 < (Comp.ram 0 .big 4).size ∧
      0xF &&& ((holed .big).size - 1) = 4 + 3 := by decide

theorem witness_AlignedRegionsAreDisjointOrNested : 0 % 2 ^ 3 = 0 ∧ 4 % 2 ^ 2 = 0 ∧ 5 % 2 ^ 0 = 0 := by decide

theorem witness_AccessesWrapAroundAtTheSize : nested.checked = true ∧ (Comp.rom 0 .big [7#8]).checked = true := by
  decide

theorem witness_PortAddressesReachTheUnboundedSums :
    State.reset.root.checked = true ∧ State.reset.root.size ≤ 2 ^ State.reset.addrW ∧
      { onRoot (.ram 0 .big 4) with addrW := 2 }.root.size ≤ 2 ^ 2 := by decide

theorem witness_DistinctAddressesReachDistinctBytes :
    nested.Valid ∧ (nested.locate 0x1D).isHole = false ∧ nested.locate 0x1D = nested.locate 0xD := by decide

/-- Trees that differ in the child's order alone, and trees that differ in the root's. -/
theorem witness_OnlyTheRootOrderMattersAndOnlyForWords :
    (∃ t, (Comp.map .big (.cons 0 (.ram 0 .little 4) .nil)).eraseOrders =
        (onRoot (.map .big (.cons 0 (.ram 0 .big 4) .nil))).root.eraseOrders ∧
      (Comp.map .big (.cons 0 (.ram 0 .little 4) .nil)).order =
        (onRoot (.map .big (.cons 0 (.ram 0 .big 4) .nil))).root.order ∧
      exec (.rw 0) (onRoot (.map .big (.cons 0 (.ram 0 .big 4) .nil))) = .next t) ∧
    (∃ t, (holed .little).eraseOrders = (onRoot (holed .big)).root.eraseOrders ∧
      exec (.wb 4 1#8) (onRoot (holed .big)) = .next t) :=
  ⟨⟨_, rfl, rfl, rfl⟩, ⟨_, rfl, rfl⟩⟩

theorem witness_NextPowerOfTwoIsTheSmallest : 0 ≤ 2 ^ 0 ∧ 5 ≤ 2 ^ 3 ∧ ¬ 5 ≤ 2 ^ 2 := by decide

theorem witness_MapSizeIsTheSmallestThatCovers :
    ∀ r ∈ (Regions.cons 8 (.ram 0 .big 4) .nil).toList, r.1 + r.2.size ≤ 2 ^ 4 := by decide

theorem witness_ByteWriteChangesOneMaskedAddress : nested.Valid ∧ nested.locate 0xF = .ram 1 3 := by decide

/-- A word across the two RAMs of V-MAP-1, from the top of the space to the bottom. -/
theorem witness_WordWrittenIsReadBack :
    (onRoot (.map .big (.cons 0 (.ram 0 .big 4) (.cons 4 (.ram 1 .big 4) .nil)))).root.Valid ∧
    (∀ k : Fin 4, (onRoot (.map .big (.cons 0 (.ram 0 .big 4) (.cons 4 (.ram 1 .big 4) .nil)))).target 6 k =
      .ram (if k.val < 2 then 1 else 0) ((k.val + 2) % 4)) ∧
    (∀ j k : Fin 4, j ≠ k → byteAddr 16 6 j % 8 ≠ byteAddr 16 6 k % 8) := by decide

theorem witness_WordsOverlapThemselvesOnSmallRams :
    (onRoot (.ram 0 .little 1)).root = .ram 0 .little 1 ∧ (onRoot (.ram 0 .little 2)).root = .ram 0 .little 2 ∧
      1 ≤ (onRoot (.ram 0 .little 2)).addrW ∧ 0xFFFE % 2 = 0 := by decide

/-- V-ROM-8: words 0 and 1 of a little-endian ROM. -/
def wordRom : Comp := .rom 0 .little [0x44#8, 0x33#8, 0x22#8, 0x11#8, 0x88#8, 0x77#8, 0x66#8, 0x55#8]

theorem witness_RomWordsReadBackInTheRomsOrder :
    buildRom { addrW := 16 } 0 (.words [0x11223344, 0x55667788]) none .little none = .ok (onRoot wordRom).root ∧
      (onRoot wordRom).root.size ≤ 2 ^ (onRoot wordRom).addrW ∧
      [0x11223344, 0x55667788][1]? = some 0x55667788 := by decide

/-- The last word of a ROM at base 8, listed after a RAM at 0. -/
theorem witness_RomWordsReverseUnderTheOtherOrder :
    buildRom { addrW := 16 } 0 (.words [0x11223344, 0x55667788]) none .little none = .ok wordRom ∧
      (onRoot (.map .big (.cons 0 (.ram 1 .big 4) (.cons 8 wordRom .nil)))).root =
        .map .big (.cons 0 (.ram 1 .big 4) (.cons 8 wordRom .nil)) ∧
      (Regions.cons 0 (.ram 1 .big 4) (.cons 8 wordRom .nil)).checked = true ∧
      (8, wordRom) ∈ (Regions.cons 0 (.ram 1 .big 4) (.cons 8 wordRom .nil)).toList ∧
      ByteOrder.big ≠ .little ∧
      (onRoot (.map .big (.cons 0 (.ram 1 .big 4) (.cons 8 wordRom .nil)))).root.size ≤ 2 ^ 16 ∧
      [0x11223344, 0x55667788][1]? = some 0x55667788 := by decide

theorem witness_RomBytesNeverChange :
    ∃ t, (waiting [0x4000800000000]).root.locate 8 = .rom 1 0 0xDE#8 ∧
      step (waiting [0x4000800000000]) = .next t :=
  ⟨_, by decide, rfl⟩

theorem witness_RomImageIsContentThenPaddingInPhase :
    buildRom { addrW := 16 } 0 (.bytes [1#8, 2#8, 3#8, 4#8, 5#8]) none .big (some [0xA#8, 0xB#8, 0xC#8]) =
      .ok (.rom 0 .big [1#8, 2#8, 3#8, 4#8, 5#8, 0xC#8, 0xA#8, 0xB#8]) ∧
    buildRom { addrW := 16 } 0 (.bytes []) (some 1) .big none = .ok (.rom 0 .big [0xFF#8]) := by decide

/-- Operands for each of the five clauses; a size that is no power of two is not any `2^k`. -/
theorem witness_RomChecksAreMadeInOrder :
    (some ([] : List Byte)).getD [0xFF#8] = [] ∧ (none : Option (List Byte)).getD [0xFF#8] ≠ [] ∧
    2 ^ 32 ≤ 0x100000000 ∧ isPow2 6 = false ∧ (isPow2 2 = true ∧ 2 < (contentBytes .big (.bytes [1#8, 2#8, 3#8])).length) ∧
    ¬ 4 < (contentBytes .big (.words [1])).length := by decide

theorem witness_RamSizeMustBeAPowerOfTwo :
    (some 4).getD 256 = 2 ^ 2 ∧ (none : Option Nat).getD 256 = 2 ^ 8 ∧ isPow2 ((some 0).getD 256) = false := by decide

/-- Two bindings out of order that are built, and two that are not. -/
theorem witness_MapIsBuiltExactlyFromAlignedDisjointBindings :
    (∀ x ∈ [((4 : Int), Comp.ram 0 .big 4), (0, Comp.ram 1 .big 4)], x.2.checked = true) ∧
    buildMap .big [(4, .ram 0 .big 4), (0, .ram 1 .big 4)] =
      .ok (.map .big (.cons 4 (.ram 0 .big 4) (.cons 0 (.ram 1 .big 4) .nil))) ∧
    buildMap .big [(0, .ram 0 .big 8), (4, .ram 1 .big 4)] = .error .overlappingRegion := by decide

theorem witness_BindingChecksAreMadeInOrder :
    (∃ c, buildMap .big [(0, .ram 0 .big 8)] = .ok c) ∧ ((-4 : Int) < 0) ∧
    ((0 : Int) ≤ 5 ∧ (5 : Int).toNat &&& ((Comp.ram 1 .big 4).size - 1) ≠ 0) ∧
    ((0 : Int) ≤ 4 ∧ (4 : Int).toNat &&& ((Comp.ram 1 .big 4).size - 1) = 0 ∧
      ∃ x ∈ [((0 : Int), Comp.ram 0 .big 8)], x.1 < 4 + ((Comp.ram 1 .big 4).size : Int) ∧
        4 < x.1 + (x.2.size : Int)) :=
  ⟨⟨_, rfl⟩, by decide, by decide, by decide⟩

/-- A first child that is built at a base its map would refuse and a second child that fails; and a map whose two children
are built. -/
theorem witness_ChildrenAreBuiltInListOrderBeforeTheirMap :
    ((Bindings.cons 3 (ramOf 0 4) (.cons 8 (ramOf 1 3) .nil)).toList = [(3, ramOf 0 4)] ++ (8, ramOf 1 3) :: [] ∧
      (∀ x ∈ [((3 : Int), ramOf 0 4)], x.2.build { addrW := 16 } = .ok (.ram 0 .big 4)) ∧
      (ramOf 1 3).build { addrW := 16 } = .error .invalidSize) ∧
    (Bindings.cons 4 (ramOf 0 4) (.cons 0 (ramOf 1 4) .nil)).toList.map (fun x => (x.1, x.2.build { addrW := 16 })) =
      [((4 : Int), Comp.ram 0 .big 4), (0, .ram 1 .big 4)].map (fun x => (x.1, .ok x.2)) := by decide

/-- One case for each clause; the last is a root of exactly `2^ADDR_W` bytes. -/
theorem witness_AliasingIsRefusedFirstAndThePortWidthLast :
    (¬ (mapOf .big [(0, ramOf 0 4), (4, ramOf 0 4)]).leafIds.Nodup) ∧
    ((mapOf .big [(0, ramOf 0 4), (4, ramOf 1 4)]).leafIds.Nodup ∧
      ∃ s, built (mapOf .big [(0, ramOf 0 4), (4, ramOf 1 4)]) = .ok s) ∧
    ((ramOf 0 3).leafIds.Nodup ∧ (ramOf 0 3).build { addrW := 16 } = .error .invalidSize) ∧
    ((ramOf 0 8).leafIds.Nodup ∧ (ramOf 0 8).build { addrW := 2 } = .ok (.ram 0 .big 8) ∧
      2 ^ 2 < (Comp.ram 0 .big 8).size) ∧
    ((ramOf 0 65536).leafIds.Nodup ∧ (ramOf 0 65536).build { addrW := 16 } = .ok (.ram 0 .big 65536) ∧
      (Comp.ram 0 .big 65536).size = 2 ^ 16) :=
  ⟨by decide, ⟨by decide, _, rfl⟩, by decide, by decide, by decide⟩

theorem witness_ConstructionLeavesEveryRamByteAtItsDraw :
    ∃ s, construct { addrW := 16 } 3 (mapOf .big [(0, ramOf 0 4), (4, ramOf 1 4)]) = .ok s :=
  ⟨_, rfl⟩

end Sys2Proof.Tests
end

/-! # The power of two that covers a length (00_scope.md §3, R12) -/

section
namespace Sys2Proof

/-- The powers of two that cover `nextPow2 n` are those that cover `n`: no smaller one is skipped. -/
theorem nextPow2_le_two_pow_iff {n j : Nat} : nextPow2 n ≤ 2 ^ j ↔ n ≤ 2 ^ j := by
  refine ⟨(le_nextPow2 n).trans, fun hn => ?_⟩
  unfold nextPow2
  split
  · exact Nat.one_le_two_pow
  next hlarge =>
    have hlog : Nat.log2 (n - 1) < j := (Nat.log2_lt (by omega)).mpr (by omega)
    exact Nat.pow_le_pow_right Nat.two_pos hlog

/-- Settles O40: the model's `nextPow2` is a power of two, covers its argument, and is the least that does. -/
theorem nextPowerOfTwoIsTheSmallest : Obligations.NextPowerOfTwoIsTheSmallest :=
  fun n => ⟨isPow2_iff.mp (nextPow2_isPow2 n), le_nextPow2 n, fun _ => nextPow2_le_two_pow_iff.mpr⟩

end Sys2Proof
end

/-! # The state: what a request, a step and construction keep (10_state.md, 60_exceptions.md §3) -/

/-! ## Where a byte access ends in a tree -/

section
namespace Sys2Proof

/-- A masked address stays below the size that gave the mask (R27, R51). -/
theorem and_mask_lt {n : Nat} (hpos : 0 < n) (a : Nat) : a &&& (n - 1) < n := by
  have hle : a &&& (n - 1) ≤ n - 1 := Nat.and_le_right
  omega

mutual

/-- The map address of a hole lies in the space of the root: a nested map's space lies in its parent's (R183, R184). -/
theorem locate_hole_lt_size {m : Nat} : ∀ {c : Comp} {a : Nat}, c.locate a = .hole m → m < c.size
  | .rom _ _ _, _, h => by simp [locate_rom] at h
  | .ram _ _ _, _, h => by simp [locate_ram] at h
  | .map o rs, a, h => by
    have hmask : a &&& (Comp.map o rs).mask < nextPow2 rs.endAddr := by
      rw [Comp.mask, size_map]
      exact and_mask_lt (isPow2_pos (nextPow2_isPow2 _)) a
    have hend := le_nextPow2 rs.endAddr
    rw [size_map]
    rw [locate_map] at h
    have hhole := regions_locate_hole h
    omega

/-- Routing stops at the routed address itself, or in a map below a region. -/
theorem regions_locate_hole {m : Nat} :
    ∀ {rs : Regions} {x : Nat}, rs.locate x = .hole m → m = x ∨ m < rs.endAddr
  | .nil, _, h => .inl (by simpa using h.symm)
  | .cons b c rest, x, h => by
    rw [locate_cons] at h
    rw [endAddr_cons]
    split at h
    · have hchild := locate_hole_lt_size h
      omega
    · have hrest := regions_locate_hole h
      omega

end

mutual

/-- An access that ends in a RAM ends in a byte of a RAM of the tree (R31, R153). -/
theorem locate_ram_mem {r j : Nat} :
    ∀ {c : Comp} {a : Nat}, c.checked = true → c.locate a = .ram r j → ∃ n, (r, n) ∈ c.rams ∧ j < n
  | .rom _ _ _, _, _, h => by simp [locate_rom] at h
  | .ram id o size, a, hc, h => by
    simp only [locate_ram, Target.ram.injEq] at h
    obtain ⟨rfl, rfl⟩ := h
    have hpos : 0 < size := isPow2_pos (size_isPow2 hc)
    exact ⟨size, by simp [Comp.rams], and_mask_lt hpos a⟩
  | .map o rs, a, hc, h => by
    rw [locate_map] at h
    simpa [Comp.rams] using regions_locate_ram_mem (checked_map.mp hc) h

/-- The same below the regions of a map. -/
theorem regions_locate_ram_mem {r j : Nat} :
    ∀ {rs : Regions} {x : Nat}, rs.checked = true → rs.locate x = .ram r j → ∃ n, (r, n) ∈ rs.rams ∧ j < n
  | .nil, _, _, h => by simp at h
  | .cons b c rest, x, hc, h => by
    obtain ⟨hchild, -, -, hrest⟩ := checked_cons.mp hc
    rw [locate_cons] at h
    simp only [Regions.rams, List.mem_append]
    split at h
    · obtain ⟨n, hmem, hlt⟩ := locate_ram_mem hchild h
      exact ⟨n, .inl hmem, hlt⟩
    · obtain ⟨n, hmem, hlt⟩ := regions_locate_ram_mem hrest h
      exact ⟨n, .inr hmem, hlt⟩

end

end Sys2Proof
end

/-! ## What a request leaves unchanged -/

section
namespace Sys2Proof.Machine

/-- A request changes nothing but RAM storage, `FAULT` and the responses (R28, R110). -/
theorem exec_frame {i : Instr} {s t : State} (h : exec i s = .next t) :
    t = { s with ram := t.ram, fault := t.fault, responses := t.responses } := by
  obtain ⟨u, hu, -, ⟨q, -, -, rfl⟩ | ⟨e, -, -, -, rfl⟩⟩ := exec_cases h <;> rw [hu] <;> rfl

/-- `LEN`, `RB` and `RW` store nothing, on the error path either (R63). -/
theorem exec_keeps_ram_or_writes {i : Instr} {s t : State} (h : exec i s = .next t) :
    t.ram = s.ram ∨ (∃ a b, i = .wb a b) ∨ (∃ a w, i = .ww a w) := by
  cases i with
  | len => cases h; exact .inl rfl
  | rb a =>
    simp only [exec, execRb] at h
    split at h <;> cases h <;> exact .inl rfl
  | rw a =>
    simp only [exec, execRw] at h
    split at h <;> cases h <;> exact .inl rfl
  | wb a b => exact .inr (.inl ⟨a, b, rfl⟩)
  | ww a w => exact .inr (.inr ⟨a, w, rfl⟩)

end Sys2Proof.Machine
end

/-! ## Every step keeps the invariant (O9) -/

section
namespace Sys2Proof.Machine

/-- The address operand of a decoded request fits the port (R81, R84). -/
theorem decode_requestAddr_lt {n w : Nat} {i : Instr} (h : decode n w = .ok i) : requestAddr i < 2 ^ n := by
  have hfield : (Req.ofWord n w).addr < 2 ^ n := Nat.mod_lt _ (Nat.two_pow_pos n)
  unfold decode decodeReq at h
  split at h
  · cases h; exact Nat.two_pow_pos n
  · cases h; exact hfield
  · split at h <;> cases h
    exact hfield
  · cases h; exact hfield
  · cases h; exact hfield
  · cases h

/-- The command codes a fault record can hold: those of every request but `LEN` (R83, R205). -/
theorem opcode_mem_of_ne_len {i : Instr} (h : i ≠ .len) : opcode i ∈ [0b001#3, 0b010#3, 0b011#3, 0b100#3] := by
  cases i with
  | len => exact absurd rfl h
  | rb a => simp [opcode]
  | wb a b => simp [opcode]
  | rw a => simp [opcode]
  | ww a w => simp [opcode]

/-- Codes 1 and 2 are the byte requests (R83). -/
theorem byte_request_of_opcode_mem {i : Instr} (h : opcode i ∈ [0b001#3, 0b010#3]) :
    ∃ a, i = .rb a ∨ ∃ v, i = .wb a v := by
  cases i with
  | len => simp [opcode] at h
  | rb a => exact ⟨a, .inl rfl⟩
  | wb a b => exact ⟨a, .inr ⟨b, rfl⟩⟩
  | rw a => simp [opcode] at h
  | ww a w => simp [opcode] at h

/-- What is legal in a fault record depends on the configuration alone. -/
theorem FaultRecord.Legal.of_config_eq {s t : State} {f : FaultRecord} (h : f.Legal s)
    (hroot : t.root = s.root) (haddrW : t.addrW = s.addrW) : f.Legal t where
  op_range := h.op_range
  addr_fits := haddrW ▸ h.addr_fits
  byte_first := h.byte_first
  in_map := hroot ▸ h.in_map

/-- What is legal in a response depends on the configuration alone. -/
theorem Rsp.Legal.of_root_eq {s t : State} {r : Rsp} (h : r.Legal s) (hroot : t.root = s.root) : r.Legal t where
  status_range := h.status_range
  error_empty := h.error_empty
  rlen_size := hroot ▸ h.rlen_size

/-- The record of an error that a request on the port takes is legal (R209). -/
theorem faultRecord_legal {s : State} {i : Instr} {e : Raise} (hlen : i ≠ .len)
    (haddr : requestAddr i < 2 ^ s.addrW)
    (hbyte : ∀ a, i = .rb a ∨ (∃ v, i = .wb a v) → e.byteIndex = 0)
    (hhole : ∃ a, s.root.locate a = .hole e.mapAddr) :
    (faultRecord (opcode i) (requestAddr i) e).Legal s where
  op_range := opcode_mem_of_ne_len hlen
  addr_fits := haddr
  byte_first hop := by
    obtain ⟨a, hi⟩ := byte_request_of_opcode_mem hop
    exact hbyte a hi
  in_map := by
    obtain ⟨a, ha⟩ := hhole
    exact locate_hole_lt_size ha

/-- The error response is legal (R82, decision D26). -/
theorem rspUnmapped_legal (s : State) : rspUnmapped.Legal s where
  status_range := .inr rfl
  error_empty _ := ⟨rfl, rfl⟩
  rlen_size := .inl rfl

/-- An OK response with the length field of `LEN` or with none is legal (R82). -/
theorem rsp_legal_of_ok {s : State} {q : Rsp} (hok : q.status = statusOk)
    (hlen : q.rlen = 0 ∨ q.rlen = s.root.size) : q.Legal s where
  status_range := .inl hok
  error_empty herr := absurd (hok.symm.trans herr) (by decide)
  rlen_size := hlen

/-- A state of the tree `root` whose RAM storage is canonical and lists only bytes of the tree's RAMs (R31): the part
of the invariant that a storage write must keep. -/
structure State.StoresIn (root : Comp) (s : State) : Prop where
  root_eq : s.root = root
  wf : s.ram.Wf s.construction
  owned : ∀ c ∈ s.ram, s.OwnsKey c.1

/-- Storing a byte that the tree's decoder reaches keeps the storage canonical and in the tree (R154). -/
theorem storesIn_setRamByte {root : Comp} {s : State} {r j a : Nat} (v : Byte) (hroot : root.checked = true)
    (h : s.StoresIn root) (hloc : root.locate a = .ram r j) : (s.setRamByte r j v).StoresIn root where
  root_eq := h.root_eq
  wf := memory_write_wf h.wf _ v
  owned c hc := by
    rcases memory_mem_write hc with ⟨rfl, -⟩ | hold
    · obtain ⟨n, hmem, hlt⟩ := locate_ram_mem hroot hloc
      exact ⟨(r, n), by simpa [h.root_eq] using hmem, j, hlt, rfl⟩
    · exact h.owned c hold

/-- New storage that is canonical and in the tree keeps the invariant. -/
theorem inv_of_storesIn {s : State} {m : Memory} (h : s.Inv) (hm : { s with ram := m }.StoresIn s.root) :
    { s with ram := m }.Inv :=
  { h with
    ram_wf := hm.wf
    ram_owned := hm.owned
    fault_legal := fun f hf => (h.fault_legal f hf).of_config_eq rfl rfl
    rsp_legal := fun r hr => (h.rsp_legal r hr).of_root_eq rfl }

/-- Taking a request off the port keeps the invariant. -/
theorem inv_dropRequest {s : State} (h : s.Inv) : s.dropRequest.Inv :=
  { h with
    fault_legal := fun f hf => (h.fault_legal f hf).of_config_eq rfl rfl
    rsp_legal := fun r hr => (h.rsp_legal r hr).of_root_eq rfl }

/-- Refusing a request keeps the invariant while no error has ended the run (R110). -/
theorem inv_refuse {s : State} (h : s.Inv) (hfault : s.fault = none) : s.refuse.Inv :=
  { h with
    one_end := fun ⟨hset, _⟩ => hset hfault
    fault_legal := fun f hf => (h.fault_legal f hf).of_config_eq rfl rfl
    rsp_legal := fun r hr => (h.rsp_legal r hr).of_root_eq rfl }

/-- An OK response keeps the invariant while no error has ended the run (R82, R210). -/
theorem inv_respond {s : State} {q : Rsp} (h : s.Inv) (hfault : s.fault = none) (hok : q.status = statusOk)
    (hlen : q.rlen = 0 ∨ q.rlen = s.root.size) : (s.respond q).Inv :=
  { h with
    fault_legal := fun f hf => (h.fault_legal f hf).of_config_eq rfl rfl
    rsp_legal := List.forall_mem_append.mpr
      ⟨fun r hr => (h.rsp_legal r hr).of_root_eq rfl,
        List.forall_mem_singleton.mpr ((rsp_legal_of_ok hok hlen).of_root_eq rfl)⟩
    rsp_ok := fun _ => List.forall_mem_append.mpr ⟨h.rsp_ok hfault, List.forall_mem_singleton.mpr hok⟩
    rsp_fault := fun hset => absurd hfault hset }

/-- The first error of a run keeps the invariant when its record is legal (R110, R209, R210). -/
theorem inv_takeUnmapped {s : State} {op : BitVec 3} {addr : Nat} {e : Raise} (h : s.Inv)
    (hfault : s.fault = none) (hrefused : s.refused = false) (hlegal : (faultRecord op addr e).Legal s) :
    (s.takeUnmapped op addr e).Inv :=
  have hset : (s.takeUnmapped op addr e).fault = some (faultRecord op addr e) := by simp [hfault]
  { h with
    one_end := by simp [hrefused]
    fault_legal := fun f hf => by
      rw [hset, Option.some.injEq] at hf
      exact hf ▸ hlegal.of_config_eq rfl rfl
    rsp_legal := List.forall_mem_append.mpr
      ⟨fun r hr => (h.rsp_legal r hr).of_root_eq rfl, List.forall_mem_singleton.mpr (rspUnmapped_legal _)⟩
    rsp_ok := fun hnone => by rw [hset] at hnone; cases hnone
    rsp_fault := fun _ => ⟨s.responses, rfl, h.rsp_ok hfault⟩ }

/-- A request on the port of a run that is not over keeps the invariant. -/
theorem exec_keeps_inv {i : Instr} {s t : State} (h : s.Inv) (hfault : s.fault = none) (hrefused : s.refused = false)
    (haddr : requestAddr i < 2 ^ s.addrW) (hexec : exec i s = .next t) : t.Inv := by
  obtain ⟨u, hu, hstores, hanswer⟩ := exec_cases hexec
  have hroot : u.root = s.root := by rw [hu]
  obtain ⟨hchecked, -⟩ := h.root_valid
  have hstored : u.StoresIn s.root := by
    refine hstores (State.StoresIn s.root) ⟨rfl, h.ram_wf, h.ram_owned⟩ fun x r j v a hx hloc => ?_
    exact storesIn_setRamByte v hchecked hx (hroot ▸ hloc)
  generalize u.ram = m at hu
  subst hu
  have hinv := inv_of_storesIn h hstored
  rcases hanswer with ⟨q, hok, hlen, rfl⟩ | ⟨e, hne, hbyte, hhole, rfl⟩
  · exact inv_respond hinv hfault hok hlen
  · exact inv_takeUnmapped hinv hfault hrefused (faultRecord_legal hne haddr hbyte hhole)

/-- Settles O9: a step runs a decoded request, whose address fits the port, or refuses one. -/
theorem stepKeepsTheInvariant : Obligations.StepKeepsTheInvariant := by
  intro s t hinv hstep
  obtain ⟨hfault, hrefused, w, rest, -, ⟨i, hdec, hexec⟩ | ⟨e, -, rfl⟩⟩ := step_cases hstep
  · exact exec_keeps_inv (inv_dropRequest hinv) hfault hrefused (decode_requestAddr_lt hdec) hexec
  · exact inv_refuse (inv_dropRequest hinv) hfault

end Sys2Proof.Machine
end

/-! ## Construction meets the invariant, and so does reset (O11, O10) -/

section
namespace Sys2Proof.Machine

/-- Bindings are placed exactly when the first passes its checks and the others are placed after it (R175). -/
theorem placeAll_cons_eq_ok {placed : List (Nat × Nat)} {base : Int} {child : Comp} {rest : List (Int × Comp)}
    {rs : Regions} :
    placeAll placed ((base, child) :: rest) = .ok rs ↔ ∃ b rs', checkBinding placed base child.size = .ok b ∧
      placeAll (placed ++ [(b, child.size)]) rest = .ok rs' ∧ rs = .cons b child rs' := by
  rw [placeAll]
  split
  next e he => simp [he]
  next b hb =>
    split
    next e he => simp [hb, he]
    next rs' hrs' => simp [hb, hrs', eq_comm]

/-- Placed regions keep clear of the intervals placed before them (R174). -/
theorem placeAll_clear {children : List (Int × Comp)} : ∀ {placed : List (Nat × Nat)} {rs : Regions},
    placeAll placed children = .ok rs → ∀ r ∈ rs.toList, ∀ q ∈ placed, overlaps r.1 r.2.size q.1 q.2 = false := by
  induction children with
  | nil =>
    intro placed rs h
    cases h
    simp
  | cons x rest ih =>
    obtain ⟨base, child⟩ := x
    intro placed rs h
    obtain ⟨b, rs', hcheck, hrest, rfl⟩ := placeAll_cons_eq_ok.mp h
    obtain ⟨-, -, hfree, rfl⟩ := checkBinding_eq_ok.mp hcheck
    rw [regions_toList_cons, List.forall_mem_cons]
    exact ⟨hfree, fun r hr q hq => ih hrest r hr q (List.mem_append_left _ hq)⟩

/-- Admitted children that are placed make an admitted region list (R173, R174). -/
theorem placeAll_checked {children : List (Int × Comp)} : ∀ {placed : List (Nat × Nat)} {rs : Regions},
    placeAll placed children = .ok rs → (∀ x ∈ children, x.2.checked = true) → rs.checked = true := by
  induction children with
  | nil =>
    intro placed rs h _
    cases h
    simp [Regions.checked]
  | cons x rest ih =>
    obtain ⟨base, child⟩ := x
    intro placed rs h hchildren
    obtain ⟨hchild, hchildren⟩ := List.forall_mem_cons.mp hchildren
    obtain ⟨b, rs', hcheck, hrest, rfl⟩ := placeAll_cons_eq_ok.mp h
    obtain ⟨-, haligned, -, rfl⟩ := checkBinding_eq_ok.mp hcheck
    refine checked_cons.mpr ⟨hchild, haligned, fun r hr hclash => ?_, ih hrest hchildren⟩
    obtain ⟨hbelow, habove⟩ := hclash
    have hclear := placeAll_clear hrest r hr (base.toNat, child.size) (by simp)
    rw [overlaps_iff.mpr ⟨habove, hbelow⟩] at hclear
    cases hclear

/-- Placing keeps the storage objects of the children, in list order (R30). -/
theorem placeAll_leafIds {children : List (Int × Comp)} : ∀ {placed : List (Nat × Nat)} {rs : Regions},
    placeAll placed children = .ok rs → rs.leafIds = children.flatMap (fun x => x.2.leafIds) := by
  induction children with
  | nil =>
    intro placed rs h
    cases h
    simp [Regions.leafIds]
  | cons x rest ih =>
    obtain ⟨base, child⟩ := x
    intro placed rs h
    obtain ⟨b, rs', -, hrest, rfl⟩ := placeAll_cons_eq_ok.mp h
    simp [Regions.leafIds, ih hrest]

/-- A map is built exactly from built children that it places (R212, R242). -/
theorem build_map_eq_ok {p : Params} {o : ByteOrder} {mapping : Bindings} {c : Comp} :
    (Desc.map o mapping).build p = .ok c ↔
      ∃ children, mapping.build p = .ok children ∧ buildMap o children = .ok c := by
  rw [Desc.build]
  split
  next e he => simp [he]
  next children hchildren => simp [hchildren]

/-- The bindings of a map are built exactly when each child is (R212). -/
theorem build_cons_eq_ok {p : Params} {base : Int} {child : Desc} {rest : Bindings} {cs : List (Int × Comp)} :
    (Bindings.cons base child rest).build p = .ok cs ↔
      ∃ c cs', child.build p = .ok c ∧ rest.build p = .ok cs' ∧ cs = (base, c) :: cs' := by
  rw [Bindings.build]
  split
  next e he => simp [he]
  next c hc =>
    split
    next e he => simp [hc, he]
    next cs' hcs' => simp [hc, hcs', eq_comm]

mutual

/-- What is built has passed every check (R24, R25, R173, R174). -/
theorem build_checked {p : Params} : ∀ {d : Desc} {c : Comp}, d.build p = .ok c → c.checked = true
  | .rom _ _ _ _ _, _, h => by
    rw [Desc.build] at h
    obtain ⟨-, -, n, rfl, hpow, -, -⟩ := buildRom_ok h
    simpa [Comp.checked] using hpow
  | .ram _ _ _, _, h => by
    rw [Desc.build] at h
    obtain ⟨hpow, rfl⟩ := buildRam_ok h
    simpa [Comp.checked] using hpow
  | .map _ _, _, h => by
    obtain ⟨children, hchildren, hmap⟩ := build_map_eq_ok.mp h
    obtain ⟨rs, hplace, rfl⟩ := buildMap_eq_ok.mp hmap
    exact checked_map.mpr (placeAll_checked hplace (bindings_build_checked hchildren))

/-- The same for the built children of a map. -/
theorem bindings_build_checked {p : Params} :
    ∀ {bs : Bindings} {cs : List (Int × Comp)}, bs.build p = .ok cs → ∀ x ∈ cs, x.2.checked = true
  | .nil, _, h => by
    rw [Bindings.build] at h
    cases h
    simp
  | .cons _ _ _, _, h => by
    obtain ⟨c, cs', hc, hcs', rfl⟩ := build_cons_eq_ok.mp h
    exact List.forall_mem_cons.mpr ⟨build_checked hc, bindings_build_checked hcs'⟩

end

mutual

/-- A built tree has the storage objects of its configuration, in the same order (R30). -/
theorem build_leafIds {p : Params} : ∀ {d : Desc} {c : Comp}, d.build p = .ok c → c.leafIds = d.leafIds
  | .rom _ _ _ _ _, _, h => by
    rw [Desc.build] at h
    obtain ⟨-, -, n, rfl, -, -, -⟩ := buildRom_ok h
    simp [Comp.leafIds, Desc.leafIds]
  | .ram _ _ _, _, h => by
    rw [Desc.build] at h
    obtain ⟨-, rfl⟩ := buildRam_ok h
    simp [Comp.leafIds, Desc.leafIds]
  | .map _ _, _, h => by
    obtain ⟨children, hchildren, hmap⟩ := build_map_eq_ok.mp h
    obtain ⟨rs, hplace, rfl⟩ := buildMap_eq_ok.mp hmap
    rw [Comp.leafIds, Desc.leafIds, placeAll_leafIds hplace, bindings_build_leafIds hchildren]

/-- The same for the built children of a map. -/
theorem bindings_build_leafIds {p : Params} : ∀ {bs : Bindings} {cs : List (Int × Comp)},
    bs.build p = .ok cs → cs.flatMap (fun x => x.2.leafIds) = bs.leafIds
  | .nil, _, h => by
    rw [Bindings.build] at h
    cases h
    simp [Bindings.leafIds]
  | .cons _ _ _, _, h => by
    obtain ⟨c, cs', hc, hcs', rfl⟩ := build_cons_eq_ok.mp h
    rw [List.flatMap_cons, Bindings.leafIds, build_leafIds hc, bindings_build_leafIds hcs']

end

/-- The fresh state of an admitted tree that fits the port meets the invariant (R36, R240). -/
theorem constructed_inv {w n : Nat} {c : Comp} (hvalid : c.Valid) (hfits : c.size ≤ 2 ^ w) :
    (constructed w n c).Inv where
  root_valid := hvalid
  root_fits := hfits
  ram_wf := ⟨.nil, by simp⟩
  ram_owned := by simp
  one_end := by simp
  fault_legal := by simp
  rsp_legal := by simp
  rsp_ok := by simp
  rsp_fault := by simp

/-- Settles O11: the checks of construction make the tree admitted. -/
theorem constructionMeetsTheInvariant : Obligations.ConstructionMeetsTheInvariant := by
  intro p n d s h
  obtain ⟨hnodup, c, hbuild, hfits, rfl⟩ := construct_ok h
  exact constructed_inv ⟨build_checked hbuild, (build_leafIds hbuild).symm ▸ hnodup⟩ hfits

/-- Settles O10: the reset state is the fresh state of an admitted tree of 16 bytes. -/
theorem resetMeetsTheInvariant : Obligations.ResetMeetsTheInvariant := by
  have hreset : State.reset = constructed 16 0 resetRoot := rfl
  rw [Obligations.ResetMeetsTheInvariant, hreset]
  exact constructed_inv (by decide) (by decide)

end Sys2Proof.Machine
end

/-! ## Configuration, storage, `FAULT` and `REFUSED` under requests (O12, O13, O14) -/

section
namespace Sys2Proof.Machine

/-- A request leaves the configuration and the port's width (R28). -/
theorem exec_keeps_config {i : Instr} {s t : State} (h : exec i s = .next t) :
    t.root = s.root ∧ t.addrW = s.addrW := by
  rw [exec_frame h]
  exact ⟨rfl, rfl⟩

/-- No request touches `REFUSED` (R35). -/
theorem exec_keeps_refused {i : Instr} {s t : State} (h : exec i s = .next t) : t.refused = s.refused := by
  rw [exec_frame h]

/-- Settles O12: a step takes its request off the port and runs or refuses it, and neither reaches the configuration. -/
theorem configurationIsNeverChanged : Obligations.ConfigurationIsNeverChanged := by
  refine ⟨fun i s t hexec => exec_keeps_config hexec, fun s t hstep => ?_⟩
  obtain ⟨-, -, w, rest, -, ⟨i, -, hexec⟩ | ⟨e, -, rfl⟩⟩ := step_cases hstep
  · simpa using exec_keeps_config hexec
  · exact ⟨rfl, rfl⟩

/-- Settles O13: a step that ends with `REFUSED` set has run no request, since a run request leaves `REFUSED` false. -/
theorem onlyWriteRequestsChangeRam : Obligations.OnlyWriteRequestsChangeRam := by
  refine ⟨fun i s t hexec => exec_keeps_ram_or_writes hexec, fun s t hstep hset => ?_⟩
  obtain ⟨-, hrefused, w, rest, -, ⟨i, -, hexec⟩ | ⟨e, -, rfl⟩⟩ := step_cases hstep
  · rw [exec_keeps_refused hexec, dropRequest_refused, hrefused] at hset
    cases hset
  · rfl

/-- Settles O14: an answer leaves `FAULT`, and an error sets it only where no earlier one has. -/
theorem faultAndRefusalStayOnceSet : Obligations.FaultAndRefusalStayOnceSet := by
  intro i s t hexec
  refine ⟨fun f hf => ?_, exec_keeps_refused hexec⟩
  obtain ⟨u, hu, -, hanswer⟩ := exec_cases hexec
  have hkept : u.fault = some f := by rw [hu]; exact hf
  rcases hanswer with ⟨q, -, -, rfl⟩ | ⟨e, -, -, -, rfl⟩
  · exact hkept
  · simp [hkept]

end Sys2Proof.Machine
end

/-! ## What construction answers (O53, O54) -/

section
namespace Sys2Proof.Machine

/-- Settles O53: `construct` makes its checks in the order of R212, and building keeps the storage objects. -/
theorem aliasingIsRefusedFirstAndThePortWidthLast : Obligations.AliasingIsRefusedFirstAndThePortWidthLast := by
  intro p n d
  refine ⟨?aliased, ?objects, ?node, ?wide, ?admitted⟩
  case aliased =>
    intro halias
    simp [construct, halias]
  case objects =>
    intro s h
    obtain ⟨hnodup, c, hbuild, -, rfl⟩ := construct_ok h
    have hids : c.leafIds = d.leafIds := build_leafIds hbuild
    exact ⟨hids, hids.symm ▸ hnodup⟩
  case node =>
    intro e hnodup hbuild
    simp [construct, hnodup, hbuild]
  case wide =>
    intro c hnodup hbuild hlarge
    simp [construct, hnodup, hbuild, hlarge]
  case admitted =>
    intro c hnodup hbuild hfits
    simp [construct, hnodup, hbuild, Nat.not_lt.mpr hfits]

/-- Settles O54: the fresh state lists no stored byte, so every RAM byte reads its draw. -/
theorem constructionLeavesEveryRamByteAtItsDraw : Obligations.ConstructionLeavesEveryRamByteAtItsDraw := by
  intro p n d s h
  obtain ⟨-, c, hbuild, -, rfl⟩ := construct_ok h
  refine ⟨hbuild, rfl, rfl, rfl, rfl, rfl, fun r i => ?_⟩
  rw [State.ramByte, constructed_ram, memory_read_nil]
  rfl

end Sys2Proof.Machine
end

/-! # Memory: masking, byte order and the flat byte array (20_memory.md) -/

/-! ## The decoder does not read byte orders (R55, R58) -/

section
namespace Sys2Proof

mutual

/-- The size of a component does not depend on byte orders (R24 to R26). -/
theorem size_eraseOrders : ∀ c : Comp, c.eraseOrders.size = c.size
  | .rom _ _ _ => by simp [Comp.eraseOrders, Comp.size]
  | .ram _ _ _ => by simp [Comp.eraseOrders, Comp.size]
  | .map _ rs => by rw [Comp.eraseOrders, size_map, size_map, endAddr_eraseOrders rs]

/-- Nor does the highest region end of a map (R176). -/
theorem endAddr_eraseOrders : ∀ rs : Regions, rs.eraseOrders.endAddr = rs.endAddr
  | .nil => by rw [Regions.eraseOrders]
  | .cons _ c rest => by
    rw [Regions.eraseOrders, endAddr_cons, endAddr_cons, size_eraseOrders c, endAddr_eraseOrders rest]

end

mutual

/-- Where a byte access ends does not depend on byte orders, at any depth (R55, R184). -/
theorem locate_eraseOrders : ∀ (c : Comp) (a : Nat), c.eraseOrders.locate a = c.locate a
  | .rom _ _ _, _ => by rw [Comp.eraseOrders, locate_rom, locate_rom]
  | .ram _ _ _, _ => by rw [Comp.eraseOrders, locate_ram, locate_ram]
  | .map o rs, a => by
    have hmask : (Comp.map .big rs.eraseOrders).mask = (Comp.map o rs).mask := by
      rw [Comp.mask, Comp.mask, size_map, size_map, endAddr_eraseOrders rs]
    rw [Comp.eraseOrders, locate_map, locate_map, hmask, regions_locate_eraseOrders rs]

/-- The router's choice does not depend on byte orders either (R178 to R180). -/
theorem regions_locate_eraseOrders : ∀ (rs : Regions) (m : Nat), rs.eraseOrders.locate m = rs.locate m
  | .nil, _ => by rw [Regions.eraseOrders]
  | .cons b c rest, m => by
    rw [Regions.eraseOrders, locate_cons, locate_cons, size_eraseOrders c, locate_eraseOrders c,
      regions_locate_eraseOrders rest]

end

/-- Trees that differ in byte orders alone have one size. -/
theorem size_eq_of_eraseOrders_eq {c d : Comp} (h : c.eraseOrders = d.eraseOrders) : c.size = d.size := by
  rw [← size_eraseOrders c, h, size_eraseOrders]

/-- Trees that differ in byte orders alone decode every address alike. -/
theorem locate_eq_of_eraseOrders_eq {c d : Comp} (h : c.eraseOrders = d.eraseOrders) (a : Nat) :
    c.locate a = d.locate a := by
  rw [← locate_eraseOrders c, h, locate_eraseOrders]

end Sys2Proof
end

/-! ## Two runs on trees that decode alike (O37) -/

section
namespace Sys2Proof.Machine

/-- The state `s` on the tree `c`: the other run of the two that O37 compares. -/
def State.withRoot (s : State) (c : Comp) : State := { s with root := c }

@[simp] theorem withRoot_root (s : State) (c : Comp) : (s.withRoot c).root = c := rfl
@[simp] theorem withRoot_addrW (s : State) (c : Comp) : (s.withRoot c).addrW = s.addrW := rfl

theorem respond_withRoot (s : State) (c : Comp) (q : Rsp) :
    (s.withRoot c).respond q = (s.respond q).withRoot c := rfl

section
variable {c d : Comp} (hloc : ∀ a, c.locate a = d.locate a)
include hloc

/-- Byte reads agree on components that decode alike. -/
theorem readByteC_withRoot (s : State) (r : Comp) (a : Nat) :
    readByteC (s.withRoot r) c a = readByteC s d a := by
  unfold readByteC
  rw [hloc]
  rfl

/-- Byte writes agree on components that decode alike: the same error, or the same storage. -/
theorem writeByteC_withRoot (s : State) (r : Comp) (a : Nat) (v : Byte) :
    writeByteC (s.withRoot r) c a v = (writeByteC s d a v).map (·.withRoot r) := by
  unfold writeByteC
  rw [hloc]
  cases d.locate a <;> rfl

/-- The byte reads of a word agree on components that decode alike. -/
theorem readOffset_withRoot (s : State) (r : Comp) (a : Nat) (i : Fin 4) :
    readOffset (s.withRoot r) c a i = readOffset s d a i := by
  unfold readOffset
  rw [withRoot_addrW, readByteC_withRoot hloc]

/-- Word reads agree where the order of the accessed component agrees too (R58). -/
theorem readWordC_withRoot (hord : c.order = d.order) (s : State) (r : Comp) (a : Nat) :
    readWordC (s.withRoot r) c a = readWordC s d a := by
  unfold readWordC
  simp only [readOffset_withRoot hloc, hord]

/-- A list of byte writes agrees on components that decode alike: the first error at the same offset, after the same
writes. -/
theorem writeOffsets_withRoot (r : Comp) (a : Nat) (l : List (Fin 4 × Byte)) (s : State) :
    writeOffsets c a l (s.withRoot r) =
      ((writeOffsets d a l s).1.withRoot r, (writeOffsets d a l s).2) := by
  induction l generalizing s with
  | nil => rfl
  | cons p rest ih =>
    obtain ⟨i, b⟩ := p
    unfold writeOffsets
    rw [withRoot_addrW, writeByteC_withRoot hloc]
    cases writeByteC s d (byteAddr s.addrW a i) b with
    | error m => rfl
    | ok s' => exact ih s'

/-- Word writes agree where the order of the accessed component agrees too (R58). -/
theorem writeWordC_withRoot (hord : c.order = d.order) (s : State) (r : Comp) (a : Nat) (v : Word) :
    writeWordC (s.withRoot r) c a v = ((writeWordC s d a v).1.withRoot r, (writeWordC s d a v).2) := by
  unfold writeWordC
  rw [hord, writeOffsets_withRoot hloc]

end

/-- A request does the same on a tree of the same size that decodes alike, if the roots' orders agree or the request
moves no word. -/
theorem exec_withRoot {i : Instr} {s t : State} {c : Comp} (hsize : c.size = s.root.size)
    (hloc : ∀ a, c.locate a = s.root.locate a)
    (hord : c.order = s.root.order ∨ i = .len ∨ (∃ a, i = .rb a) ∨ (∃ a b, i = .wb a b))
    (h : exec i s = .next t) : exec i (s.withRoot c) = .next (t.withRoot c) := by
  cases i with
  | len =>
    cases h
    simp only [exec, execLen, withRoot_root, hsize, respond_withRoot]
  | rb a =>
    simp only [exec, execRb, withRoot_root, readByteC_withRoot hloc] at h ⊢
    generalize readByteC s s.root a = x at h
    cases x <;> cases h <;> rfl
  | wb a b =>
    simp only [exec, execWb, withRoot_root, writeByteC_withRoot hloc] at h ⊢
    generalize writeByteC s s.root a b = x at h
    cases x <;> cases h <;> rfl
  | rw a =>
    have hroot : c.order = s.root.order := by simpa using hord
    simp only [exec, execRw, withRoot_root, readWordC_withRoot hloc hroot] at h ⊢
    generalize readWordC s s.root a = x at h
    cases x <;> cases h <;> rfl
  | ww a w =>
    have hroot : c.order = s.root.order := by simpa using hord
    simp only [exec, execWw, withRoot_root, writeWordC_withRoot hloc hroot] at h ⊢
    generalize writeWordC s s.root a w = x at h
    obtain ⟨u, _ | e⟩ := x <;> cases h <;> rfl

/-- Settles O37: sizes and decoding ignore byte orders, and only the word adapter reads one, the root's. -/
theorem onlyTheRootOrderMattersAndOnlyForWords : Obligations.OnlyTheRootOrderMattersAndOnlyForWords :=
  fun _ _ _ _ herase hord h =>
    exec_withRoot (size_eq_of_eraseOrders_eq herase) (locate_eq_of_eraseOrders_eq herase) hord h

end Sys2Proof.Machine
end

/-! ## Every access masks by the component's size (O34, O35) -/

section
namespace Sys2Proof

/-- A checked ROM ends at the remainder of the address by its size (R51, R138). -/
theorem locate_rom_mod {id : Nat} {o : ByteOrder} {image : List Byte} (hc : (Comp.rom id o image).checked = true)
    (a : Nat) : (Comp.rom id o image).locate a =
      .rom id (a % (Comp.rom id o image).size) (image.getD (a % (Comp.rom id o image).size) 0#8) := by
  rw [← and_mask_eq_mod (size_isPow2 hc), locate_rom, Comp.size]

/-- A checked RAM ends at the remainder of the address by its size (R51, R153). -/
theorem locate_ram_mod {id size : Nat} {o : ByteOrder} (hc : (Comp.ram id o size).checked = true) (a : Nat) :
    (Comp.ram id o size).locate a = .ram id (a % (Comp.ram id o size).size) := by
  rw [← and_mask_eq_mod (size_isPow2 hc), locate_ram, Comp.size]

/-- A map routes the remainder of the address by its size (R51, R181). -/
theorem locate_map_mod (o : ByteOrder) (rs : Regions) (a : Nat) :
    (Comp.map o rs).locate a = rs.locate (a % (Comp.map o rs).size) := by
  have hpow : isPow2 (Comp.map o rs).size = true := size_map o rs ▸ nextPow2_isPow2 _
  rw [← and_mask_eq_mod hpow, locate_map, Comp.mask]

/-- Where an access ends depends on the address modulo the component's size alone (R51, R52). -/
theorem locate_congr {c : Comp} (hc : c.checked = true) {a a' : Nat} (h : a % c.size = a' % c.size) :
    c.locate a = c.locate a' := by
  cases c with
  | rom id o image => rw [locate_rom_mod hc, locate_rom_mod hc, h]
  | ram id o size => rw [locate_ram_mod hc, locate_ram_mod hc, h]
  | map o rs => rw [locate_map_mod, locate_map_mod, h]

namespace Machine

/-- Byte reads at addresses where the decoder ends alike agree. -/
theorem readByteC_congr (s : State) {c : Comp} {a a' : Nat} (h : c.locate a = c.locate a') :
    readByteC s c a = readByteC s c a' := by
  rw [readByteC, readByteC, h]

/-- Byte writes at addresses where the decoder ends alike agree. -/
theorem writeByteC_congr (s : State) {c : Comp} {a a' : Nat} (v : Byte) (h : c.locate a = c.locate a') :
    writeByteC s c a v = writeByteC s c a' v := by
  rw [writeByteC, writeByteC, h]

/-- Settles O34: a multiple of the size does not change the remainder, so it does not change the target. -/
theorem accessesWrapAroundAtTheSize : Obligations.AccessesWrapAroundAtTheSize := by
  intro s c a k v hc
  have hloc : c.locate (a + k * c.size) = c.locate a := locate_congr hc (Nat.add_mul_mod_self_right a k c.size)
  exact ⟨readByteC_congr s hloc, writeByteC_congr s v hloc⟩

/-- Settles O35: a root that fits the port has a size that divides `2^ADDR_W`, so the port's wrap keeps the remainder
by the size. -/
theorem portAddressesReachTheUnboundedSums : Obligations.PortAddressesReachTheUnboundedSums := by
  intro s a k hc hfits
  obtain ⟨j, hsize⟩ := isPow2_iff.mp (size_isPow2 hc)
  have hdvd : s.root.size ∣ 2 ^ s.addrW := by
    rw [hsize] at hfits ⊢
    exact Nat.pow_dvd_pow 2 ((Nat.pow_le_pow_iff_right Nat.one_lt_two).mp hfits)
  exact locate_congr hc (Nat.mod_mod_of_dvd _ hdvd)

end Machine
end Sys2Proof
end

/-! ## Distinct masked addresses reach distinct bytes (O36) -/

section
namespace Sys2Proof

/-- The storage object in which an access ends; none for a hole. -/
def Target.object? : Target → Option Nat
  | .rom id _ _ => some id
  | .ram id _ => some id
  | .hole _ => none

/-- An access ends in a hole or in a storage object. -/
theorem exists_object_of_not_isHole : ∀ {x : Target}, x.isHole = false → ∃ id, x.object? = some id
  | .rom id _ _, _ => ⟨id, rfl⟩
  | .ram id _, _ => ⟨id, rfl⟩
  | .hole _, h => by cases h

mutual

/-- An access ends in an object of the tree (R30). -/
theorem locate_object_mem {id : Nat} :
    ∀ {c : Comp} {a : Nat}, (c.locate a).object? = some id → id ∈ c.leafIds
  | .rom _ _ _, _, h => by simpa [locate_rom, Target.object?, Comp.leafIds, eq_comm] using h
  | .ram _ _ _, _, h => by simpa [locate_ram, Target.object?, Comp.leafIds, eq_comm] using h
  | .map _ _, _, h => by
    rw [locate_map] at h
    rw [Comp.leafIds]
    exact regions_locate_object_mem h

/-- The same below the regions of a map. -/
theorem regions_locate_object_mem {id : Nat} :
    ∀ {rs : Regions} {m : Nat}, (rs.locate m).object? = some id → id ∈ rs.leafIds
  | .nil, _, h => by simp [Target.object?] at h
  | .cons _ _ _, _, h => by
    rw [locate_cons] at h
    rw [Regions.leafIds, List.mem_append]
    split at h
    · exact .inl (locate_object_mem h)
    · exact .inr (regions_locate_object_mem h)

end

/-- Two parts of a tree without a common object have no common target but holes (R30). -/
theorem locate_ne_of_disjoint {c : Comp} {rs : Regions} {a m : Nat} (hdisj : c.leafIds.Disjoint rs.leafIds)
    (hhole : (c.locate a).isHole = false) : c.locate a ≠ rs.locate m := by
  intro heq
  obtain ⟨id, hid⟩ := exists_object_of_not_isHole hhole
  exact hdisj (locate_object_mem hid) (regions_locate_object_mem (heq ▸ hid))

mutual

/-- A storage byte is reached by the addresses of one masked value only (R71). -/
theorem locate_inj_mod : ∀ {c : Comp} {a a' : Nat}, c.checked = true → c.leafIds.Nodup →
    (c.locate a).isHole = false → c.locate a = c.locate a' → a % c.size = a' % c.size
  | .rom _ _ _, _, _, hc, _, _, heq => by
    rw [locate_rom_mod hc, locate_rom_mod hc, Target.rom.injEq] at heq
    obtain ⟨-, hindex, -⟩ := heq
    exact hindex
  | .ram _ _ _, _, _, hc, _, _, heq => by
    rw [locate_ram_mod hc, locate_ram_mod hc, Target.ram.injEq] at heq
    obtain ⟨-, hindex⟩ := heq
    exact hindex
  | .map _ _, _, _, hc, hnodup, hhole, heq => by
    rw [locate_map_mod] at hhole heq
    rw [locate_map_mod] at heq
    rw [Comp.leafIds] at hnodup
    exact regions_locate_inj (checked_map.mp hc) hnodup hhole heq

/-- The router sends no two addresses to one storage byte (R180): one region passes on distinct offsets below its
child's size, and two regions have no common object. -/
theorem regions_locate_inj : ∀ {rs : Regions} {m m' : Nat}, rs.checked = true → rs.leafIds.Nodup →
    (rs.locate m).isHole = false → rs.locate m = rs.locate m' → m = m'
  | .nil, _, _, _, _, hhole, _ => by simp [Target.isHole] at hhole
  | .cons b c rest, m, m', hc, hnodup, hhole, heq => by
    obtain ⟨hchild, -, -, hrest⟩ := checked_cons.mp hc
    rw [Regions.leafIds, List.nodup_append'] at hnodup
    obtain ⟨hnodupChild, hnodupRest, hdisj⟩ := hnodup
    rw [locate_cons] at hhole heq
    rw [locate_cons] at heq
    split at hhole
    next hhit =>
      rw [if_pos hhit] at heq
      split at heq
      next hhit' =>
        have hoffset := locate_inj_mod hchild hnodupChild hhole heq
        rw [hits_iff] at hhit hhit'
        rw [Nat.mod_eq_of_lt (by omega), Nat.mod_eq_of_lt (by omega)] at hoffset
        omega
      next => exact absurd heq (locate_ne_of_disjoint hdisj hhole)
    next hmiss =>
      rw [if_neg hmiss] at heq
      split at heq
      next => exact absurd heq.symm (locate_ne_of_disjoint hdisj (heq ▸ hhole))
      next => exact regions_locate_inj hrest hnodupRest hhole heq

end

/-- Settles O36, by induction on the tree. -/
theorem distinctAddressesReachDistinctBytes : Obligations.DistinctAddressesReachDistinctBytes :=
  fun _ _ _ ⟨hchecked, hnodup⟩ hhole heq => locate_inj_mod hchecked hnodup hhole heq

end Sys2Proof
end

/-! ## The byte-order converter (O39, O38) -/

section
namespace Sys2Proof.Machine

/-- Little order is big order from the other end (R56). -/
theorem pack_little_eq_big (b0 b1 b2 b3 : Byte) : pack .little b0 b1 b2 b3 = pack .big b3 b2 b1 b0 := rfl

/-- A byte placed at bits `[lo+7 : lo]` of a word is the byte times `2^lo`. -/
theorem placed_toNat (b : Byte) {lo : Nat} (hlo : lo ≤ 24) : (placed b lo).toNat = b.toNat * 2 ^ lo := by
  have hpow : 2 ^ lo ≤ 2 ^ 24 := Nat.pow_le_pow_right Nat.two_pos hlo
  have hfits : b.toNat * 2 ^ lo < 2 ^ 8 * 2 ^ 24 :=
    Nat.mul_lt_mul_of_lt_of_le b.isLt hpow (Nat.two_pow_pos 24)
  rw [placed, BitVec.toNat_shiftLeft, BitVec.toNat_setWidth_of_le (by omega), Nat.shiftLeft_eq,
    Nat.mod_eq_of_lt (by omega)]

/-- A word of bits from `lo + 8` up and a byte placed at `lo` have no common bit, so their disjunction is their sum. -/
theorem or_placed_toNat {x : Word} {hi lo : Nat} (hx : x.toNat = hi * 2 ^ (lo + 8)) (b : Byte) (hlo : lo ≤ 24) :
    (x ||| placed b lo).toNat = x.toNat + b.toNat * 2 ^ lo := by
  have hlt : b.toNat * 2 ^ lo < 2 ^ (lo + 8) := by
    rw [Nat.pow_add, Nat.mul_comm]
    exact Nat.mul_lt_mul_of_pos_left b.isLt (Nat.two_pow_pos lo)
  rw [BitVec.toNat_or, placed_toNat b hlo, hx, ← Nat.shiftLeft_eq hi, Nat.shiftLeft_add_eq_or_of_lt hlt]

/-- The value of a word packed in big order (R56). -/
theorem pack_big_toNat (b0 b1 b2 b3 : Byte) : (pack .big b0 b1 b2 b3).toNat =
    b0.toNat * 2 ^ 24 + b1.toNat * 2 ^ 16 + b2.toNat * 2 ^ 8 + b3.toNat := by
  have h0 : (placed b0 24).toNat = b0.toNat * 2 ^ (16 + 8) := placed_toNat b0 le_rfl
  have h1 : (placed b0 24 ||| placed b1 16).toNat = (b0.toNat * 2 ^ 8 + b1.toNat) * 2 ^ (8 + 8) := by
    rw [or_placed_toNat h0 b1 (by omega), h0]
    omega
  have h2 : (placed b0 24 ||| placed b1 16 ||| placed b2 8).toNat =
      (b0.toNat * 2 ^ 16 + b1.toNat * 2 ^ 8 + b2.toNat) * 2 ^ (0 + 8) := by
    rw [or_placed_toNat h1 b2 (by omega), h1]
    omega
  rw [pack, or_placed_toNat h2 b3 (by omega), h2]
  omega

/-- Settles O39: big order by value, little order as big order from the other end. -/
theorem byteOrderPlacesTheBytes : Obligations.ByteOrderPlacesTheBytes := by
  intro b0 b1 b2 b3
  rw [pack_little_eq_big]
  exact ⟨pack_big_toNat b0 b1 b2 b3, pack_big_toNat b3 b2 b1 b0⟩

/-- The value of the byte at bits `[lo+7 : lo]` (R11). -/
theorem byteAt_toNat (v : Word) (lo : Nat) : (byteAt v lo).toNat = v.toNat / 2 ^ lo % 2 ^ 8 := by
  rw [byteAt, BitVec.extractLsb'_toNat, Nat.shiftRight_eq_div_pow]

/-- The bytes of a word, the most significant first, pack to the word in big order. -/
theorem pack_big_byteAt (v : Word) : pack .big (byteAt v 24) (byteAt v 16) (byteAt v 8) (byteAt v 0) = v := by
  apply BitVec.eq_of_toNat_eq
  simp only [pack_big_toNat, byteAt_toNat]
  have := v.isLt
  omega

/-- The bytes of a word packed in big order, at their places. -/
theorem byteAt_pack_big (b0 b1 b2 b3 : Byte) :
    byteAt (pack .big b0 b1 b2 b3) 24 = b0 ∧ byteAt (pack .big b0 b1 b2 b3) 16 = b1 ∧
      byteAt (pack .big b0 b1 b2 b3) 8 = b2 ∧ byteAt (pack .big b0 b1 b2 b3) 0 = b3 := by
  have h0 := b0.isLt
  have h1 := b1.isLt
  have h2 := b2.isLt
  have h3 := b3.isLt
  refine ⟨?_, ?_, ?_, ?_⟩ <;> apply BitVec.eq_of_toNat_eq <;> rw [byteAt_toNat, pack_big_toNat] <;> omega

/-- Packing the bytes that `unpack` gives is the word (R57). -/
theorem pack_unpack (o : ByteOrder) (v : Word) :
    pack o (unpack o v 0) (unpack o v 1) (unpack o v 2) (unpack o v 3) = v := by
  cases o with
  | big => exact pack_big_byteAt v
  | little =>
    rw [pack_little_eq_big]
    exact pack_big_byteAt v

/-- Unpacking a packed word is the bytes packed (R57). -/
theorem unpack_pack (o : ByteOrder) (b : Fin 4 → Byte) (k : Fin 4) :
    unpack o (pack o (b 0) (b 1) (b 2) (b 3)) k = b k := by
  cases o with
  | big =>
    obtain ⟨h0, h1, h2, h3⟩ := byteAt_pack_big (b 0) (b 1) (b 2) (b 3)
    match k with
    | 0 => exact h0
    | 1 => exact h1
    | 2 => exact h2
    | 3 => exact h3
  | little =>
    rw [pack_little_eq_big]
    obtain ⟨h3, h2, h1, h0⟩ := byteAt_pack_big (b 3) (b 2) (b 1) (b 0)
    match k with
    | 0 => exact h0
    | 1 => exact h1
    | 2 => exact h2
    | 3 => exact h3

/-- Settles O38. -/
theorem packAndUnpackAreInverse : Obligations.PackAndUnpackAreInverse :=
  fun o => ⟨pack_unpack o, unpack_pack o⟩

end Sys2Proof.Machine
end

/-! ## The decoded space is one flat byte array (O42) -/

section
namespace Sys2Proof.Machine

/-- A response changes no byte that a read returns. -/
@[simp] theorem readByteC_respond (s : State) (q : Rsp) (c : Comp) (a : Nat) :
    readByteC (s.respond q) c a = readByteC s c a := rfl

/-- A stored byte is read back wherever the decoder reaches it (R155). -/
theorem readByteC_setRamByte_same {s : State} {c : Comp} {a r i : Nat} {v : Byte} (h : c.locate a = .ram r i) :
    readByteC (s.setRamByte r i v) c a = .ok v := by
  rw [readByteC_of_ram h, ramByte_setRamByte_same]

/-- A stored byte changes no read that does not reach it, errors included (R154, R156). -/
theorem readByteC_setRamByte_other {s : State} {c : Comp} {a r i : Nat} {v : Byte} (h : c.locate a ≠ .ram r i) :
    readByteC (s.setRamByte r i v) c a = readByteC s c a := by
  unfold readByteC
  split
  next => rfl
  next r' i' hloc =>
    rw [ramByte_setRamByte_other]
    rintro ⟨rfl, rfl⟩
    exact h hloc
  next => rfl

/-- `WB` at an address that reaches a RAM byte stores the byte and answers OK (R104, R154). -/
theorem exec_wb_of_ram {s : State} {a r i : Nat} {v : Byte} (h : s.root.locate a = .ram r i) :
    exec (.wb a v) s = .next ((s.setRamByte r i v).respond rspDone) := by
  simp [exec, execWb, writeByteC, h]

/-- Settles O42: the addresses that reach the written byte are those with its masked value (O36, R52). -/
theorem byteWriteChangesOneMaskedAddress : Obligations.ByteWriteChangesOneMaskedAddress := by
  intro s a r i v hvalid hloc
  obtain ⟨hchecked, hnodup⟩ := hvalid
  refine ⟨_, exec_wb_of_ram hloc, fun a' => ?_⟩
  rw [respond_root, setRamByte_root, readByteC_respond]
  split
  next hsame => exact readByteC_setRamByte_same ((locate_congr hchecked hsame).trans hloc)
  next hother =>
    refine readByteC_setRamByte_other fun hloc' => hother ?_
    exact locate_inj_mod hchecked hnodup (by rw [hloc']; rfl) (hloc'.trans hloc.symm)

end Sys2Proof.Machine
end

/-! # The request encoding (30_encoding.md) -/

/-! ## The fields of a request word, packed (O2) and read back -/

section
namespace Sys2Proof

/-- The packed word of fields whose address fits the port: nothing is cut off (R81). -/
theorem toWord_of_addrFits {n : Nat} {r : Req} (h : AddrFits n r.addr) :
    r.toWord n = r.op.toNat * 2 ^ (n + 32) + r.addr * 2 ^ 32 + r.wdata.toNat := by
  rw [Req.toWord, Nat.mod_eq_of_lt h]

@[simp] theorem ofWord_op_toNat (n w : Nat) : (Req.ofWord n w).op.toNat = w / 2 ^ (n + 32) % 8 := rfl

@[simp] theorem ofWord_addr (n w : Nat) : (Req.ofWord n w).addr = w / 2 ^ 32 % 2 ^ n := rfl

@[simp] theorem ofWord_wdata (n w : Nat) : (Req.ofWord n w).wdata = BitVec.ofNat 32 w := rfl

/-- The address field of a well-formed request fits the port; it is 0 for `LEN` (R84). -/
theorem requestOf_addrFits {n : Nat} {i : Instr} (h : i.WellFormed n) : AddrFits n (requestOf i).addr := by
  cases i with
  | len => exact Nat.two_pow_pos n
  | rb a => exact h
  | wb a b => exact h
  | rw a => exact h
  | ww a w => exact h

/-- The packed word of a well-formed request, field by field (R81). -/
theorem encode_of_wellFormed {n : Nat} {i : Instr} (h : i.WellFormed n) : encode n i =
    (requestOf i).op.toNat * 2 ^ (n + 32) + (requestOf i).addr * 2 ^ 32 + (requestOf i).wdata.toNat :=
  toWord_of_addrFits (requestOf_addrFits h)

/-- Settles O2: the fields of each request are read off `requestOf`. -/
theorem encodedRequestHasItsFieldsInPlace : Obligations.EncodedRequestHasItsFieldsInPlace := by
  intro n a b w ha
  have hbyte : (b.setWidth 32).toNat = b.toNat := BitVec.toNat_setWidth_of_le (by omega)
  refine ⟨?_, ?_, ?_, ?_, ?_⟩
  · simpa [requestOf, opcode] using encode_of_wellFormed (n := n) (i := .len) trivial
  · simpa [requestOf, opcode] using encode_of_wellFormed (i := .rb a) ha
  · simpa [requestOf, opcode, hbyte] using encode_of_wellFormed (i := .wb a b) ha
  · simpa [requestOf, opcode] using encode_of_wellFormed (i := .rw a) ha
  · simpa [requestOf, opcode] using encode_of_wellFormed (i := .ww a w) ha

/-- The fields packed are the fields read back, when the address fits the port (R81). -/
theorem ofWord_toWord {n : Nat} {r : Req} (h : AddrFits n r.addr) : Req.ofWord n (r.toWord n) = r := by
  have hop := r.op.isLt
  have hdata := r.wdata.isLt
  have hlow : (r.op.toNat * 2 ^ n + r.addr) * 2 ^ 32 + r.wdata.toNat = r.toWord n := by
    rw [toWord_of_addrFits h]
    ring
  have hhigh : r.toWord n / 2 ^ 32 = r.op.toNat * 2 ^ n + r.addr := by omega
  have hfieldOp : r.toWord n / 2 ^ (n + 32) = r.op.toNat := by
    rw [Nat.add_comm n, Nat.pow_add, ← Nat.div_div_eq_div_mul, hhigh, Nat.mul_comm,
      Nat.mul_add_div (Nat.two_pow_pos n), Nat.div_eq_of_lt h, Nat.add_zero]
  have hfieldAddr : r.toWord n / 2 ^ 32 % 2 ^ n = r.addr := by
    rw [hhigh, Nat.mul_add_mod_self_right, Nat.mod_eq_of_lt h]
  have hfieldData : BitVec.ofNat 32 (r.toWord n) = r.wdata := by
    apply BitVec.eq_of_toNat_eq
    rw [BitVec.toNat_ofNat]
    omega
  unfold Req.ofWord
  rw [hfieldOp, hfieldAddr, hfieldData, BitVec.ofNat_toNat, BitVec.setWidth_eq]

end Sys2Proof
end

/-! ## The decoder, code by code (O4, O3) -/

section
namespace Sys2Proof

/-- The check that `WB` makes of its data: the high bits are 0 when the value is a byte (R84). -/
theorem extractLsb'_high_eq_zero_iff {v : Word} : v.extractLsb' 8 24 = 0#24 ↔ v.toNat < 256 := by
  have hv := v.isLt
  rw [← BitVec.toNat_inj, BitVec.extractLsb'_toNat, Nat.shiftRight_eq_div_pow, BitVec.toNat_ofNat]
  omega

/-- The check that `WB` makes, on the `wdata` field of a packed word. -/
theorem extractLsb'_ofNat_high_eq_zero_iff {w : Nat} :
    (BitVec.ofNat 32 w).extractLsb' 8 24 = 0#24 ↔ w % 2 ^ 32 < 256 := by
  rw [extractLsb'_high_eq_zero_iff, BitVec.toNat_ofNat]

/-! ### One equation per command code (R83 to R85) -/

section
variable {n w : Nat}

theorem decode_of_op_zero (h : w / 2 ^ (n + 32) % 8 = 0) : decode n w = .ok .len := by
  simp [decode, decodeReq, h]

theorem decode_of_op_one (h : w / 2 ^ (n + 32) % 8 = 1) : decode n w = .ok (.rb (w / 2 ^ 32 % 2 ^ n)) := by
  simp [decode, decodeReq, h]

theorem decode_of_op_two_of_lt (h : w / 2 ^ (n + 32) % 8 = 2) (hbyte : w % 2 ^ 32 < 256) :
    decode n w = .ok (.wb (w / 2 ^ 32 % 2 ^ n) (BitVec.ofNat 8 (w % 2 ^ 32))) := by
  have hlow : (BitVec.ofNat 32 w).extractLsb' 0 8 = BitVec.ofNat 8 (w % 2 ^ 32) := by
    apply BitVec.eq_of_toNat_eq
    simp
  simp only [decode, decodeReq, ofWord_op_toNat, h, ofWord_addr, ofWord_wdata,
    extractLsb'_ofNat_high_eq_zero_iff, if_pos hbyte, hlow]

theorem decode_of_op_two_of_le (h : w / 2 ^ (n + 32) % 8 = 2) (hwide : 256 ≤ w % 2 ^ 32) :
    decode n w = .error .byteValueTooWide := by
  simp only [decode, decodeReq, ofWord_op_toNat, h, ofWord_wdata, extractLsb'_ofNat_high_eq_zero_iff,
    if_neg hwide.not_gt]

theorem decode_of_op_three (h : w / 2 ^ (n + 32) % 8 = 3) : decode n w = .ok (.rw (w / 2 ^ 32 % 2 ^ n)) := by
  simp [decode, decodeReq, h]

theorem decode_of_op_four (h : w / 2 ^ (n + 32) % 8 = 4) :
    decode n w = .ok (.ww (w / 2 ^ 32 % 2 ^ n) (BitVec.ofNat 32 (w % 2 ^ 32))) := by
  have hdata : BitVec.ofNat 32 (w % 2 ^ 32) = BitVec.ofNat 32 w := by
    apply BitVec.eq_of_toNat_eq
    simp
  rw [hdata]
  simp [decode, decodeReq, h]

theorem decode_of_five_le_op (h : 5 ≤ w / 2 ^ (n + 32) % 8) : decode n w = .error .reservedCommand := by
  have hreserved : w / 2 ^ (n + 32) % 8 = 5 ∨ w / 2 ^ (n + 32) % 8 = 6 ∨ w / 2 ^ (n + 32) % 8 = 7 := by omega
  rcases hreserved with h | h | h <;> simp [decode, decodeReq, h]

end

/-- Settles O4: the decoder's answer for each code below 5. -/
theorem decodedOperandsAreTheRequestFields : Obligations.DecodedOperandsAreTheRequestFields := fun _ _ =>
  ⟨decode_of_op_zero, decode_of_op_one, decode_of_op_two_of_lt, decode_of_op_three, decode_of_op_four⟩

/-- An address operand is a request's only field that can be out of range (R84). -/
theorem wellFormed_of_requestAddr_lt {n : Nat} {i : Instr} (h : Machine.requestAddr i < 2 ^ n) : i.WellFormed n := by
  cases i with
  | len => trivial
  | rb a => exact h
  | wb a b => exact h
  | rw a => exact h
  | ww a w => exact h

/-- Every packed word is a request of its own command code, a `WB` whose data is no byte, or a reserved code
(R84 to R86). -/
theorem decode_cases (n w : Nat) :
    (w / 2 ^ (n + 32) % 8 < 5 ∧ ¬ (w / 2 ^ (n + 32) % 8 = 2 ∧ 256 ≤ w % 2 ^ 32) ∧
      ∃ i, decode n w = .ok i ∧ (opcode i).toNat = w / 2 ^ (n + 32) % 8) ∨
    (w / 2 ^ (n + 32) % 8 = 2 ∧ 256 ≤ w % 2 ^ 32 ∧ decode n w = .error .byteValueTooWide) ∨
    (5 ≤ w / 2 ^ (n + 32) % 8 ∧ decode n w = .error .reservedCommand) := by
  rcases Nat.lt_or_ge (w / 2 ^ (n + 32) % 8) 5 with hop | hop
  · by_cases hwide : w / 2 ^ (n + 32) % 8 = 2 ∧ 256 ≤ w % 2 ^ 32
    · obtain ⟨hwb, hdata⟩ := hwide
      exact .inr (.inl ⟨hwb, hdata, decode_of_op_two_of_le hwb hdata⟩)
    refine .inl ⟨hop, hwide, ?_⟩
    have hcodes : w / 2 ^ (n + 32) % 8 = 0 ∨ w / 2 ^ (n + 32) % 8 = 1 ∨ w / 2 ^ (n + 32) % 8 = 2 ∨
        w / 2 ^ (n + 32) % 8 = 3 ∨ w / 2 ^ (n + 32) % 8 = 4 := by omega
    rcases hcodes with h | h | h | h | h
    · exact ⟨_, decode_of_op_zero h, h.symm⟩
    · exact ⟨_, decode_of_op_one h, h.symm⟩
    · exact ⟨_, decode_of_op_two_of_lt h (by omega), h.symm⟩
    · exact ⟨_, decode_of_op_three h, h.symm⟩
    · exact ⟨_, decode_of_op_four h, h.symm⟩
  · exact .inr (.inr ⟨hop, decode_of_five_le_op hop⟩)

/-- Settles O3: of the three cases of `decode_cases`, each has its own answer. -/
theorem everyRequestWordIsARequestOrANamedRefusal : Obligations.EveryRequestWordIsARequestOrANamedRefusal := by
  intro n w
  rcases decode_cases n w with ⟨hop, hnarrow, i, hdec, hcode⟩ | ⟨hop, hwide, hdec⟩ | ⟨hop, hdec⟩
  · have hwf : i.WellFormed n := wellFormed_of_requestAddr_lt (Machine.decode_requestAddr_lt hdec)
    refine ⟨iff_of_false (by simp [hdec]) hop.not_ge, iff_of_false (by simp [hdec]) hnarrow, fun j hj => ?_⟩
    obtain rfl : i = j := Except.ok.inj (hdec.symm.trans hj)
    exact ⟨hwf, hcode⟩
  · exact ⟨iff_of_false (by simp [hdec]) (by omega), iff_of_true hdec ⟨hop, hwide⟩, by simp [hdec]⟩
  · exact ⟨iff_of_true hdec hop, iff_of_false (by simp [hdec]) (by omega), by simp [hdec]⟩

end Sys2Proof
end

/-! ## Decoding inverts encoding (O1) -/

section
namespace Sys2Proof

/-- The command map and the operand rules read a request's own fields back as that request (R83, R84). -/
theorem decodeReq_requestOf (i : Instr) : decodeReq (requestOf i) = .ok i := by
  cases i with
  | len => rfl
  | rb a => rfl
  | wb a b =>
    have hhigh : (b.setWidth 32).extractLsb' 8 24 = 0#24 := by
      rw [extractLsb'_high_eq_zero_iff, BitVec.toNat_setWidth_of_le (by omega)]
      exact b.isLt
    have hlow : (b.setWidth 32).extractLsb' 0 8 = b := by
      apply BitVec.eq_of_toNat_eq
      simpa using b.isLt
    simp [decodeReq, requestOf, opcode, hhigh, hlow]
  | rw a => rfl
  | ww a w => rfl

/-- Settles O1: the fields come back from the packed word, and the request from the fields. -/
theorem decodeInvertsEncode : Obligations.DecodeInvertsEncode := by
  intro n i hwf
  rw [decode, encode, ofWord_toWord (requestOf_addrFits hwf), decodeReq_requestOf]

end Sys2Proof
end

/-! ## What comes of a request on the port (O15, O7) -/

section
namespace Sys2Proof.Machine

/-- Every request has a next state on every state: no meaning ends in a fault or a refusal (R110, R210). -/
theorem exec_total (i : Instr) (s : State) : ∃ t, exec i s = .next t := by
  cases i with
  | len => exact ⟨_, rfl⟩
  | rb a => simp only [exec, execRb]; split <;> exact ⟨_, rfl⟩
  | wb a b => simp only [exec, execWb]; split <;> exact ⟨_, rfl⟩
  | rw a => simp only [exec, execRw]; split <;> exact ⟨_, rfl⟩
  | ww a w => simp only [exec, execWw]; split <;> exact ⟨_, rfl⟩

/-- Settles O15: an answer keeps `FAULT` and says OK; an error sets `FAULT` and says so. -/
theorem everyRequestCompletesWithOneResponse : Obligations.EveryRequestCompletesWithOneResponse := by
  intro i s
  obtain ⟨t, hexec⟩ := exec_total i s
  obtain ⟨u, hu, -, hanswer⟩ := exec_cases hexec
  have hresponses : u.responses = s.responses := by rw [hu]
  have hrequests : u.requests = s.requests := by rw [hu]
  have hfault : u.fault = s.fault := by rw [hu]
  rcases hanswer with ⟨q, hok, -, rfl⟩ | ⟨e, -, -, -, rfl⟩
  · refine ⟨_, q, hexec, by simp [hresponses], hrequests, .inl hok, fun hnone => ?_⟩
    simp [hok, statusOk, hfault, hnone]
  · refine ⟨_, rspUnmapped, hexec, by simp [hresponses], hrequests, .inr rfl, fun _ => ?_⟩
    simp [rspUnmapped, statusUnmapped]

/-- A run that is not over gives its next request to the step (R110). -/
theorem port_of_requests_cons {s : State} {w : Nat} {rest : List Nat} (hfault : s.fault = none)
    (hrefused : s.refused = false) (hreq : s.requests = w :: rest) : s.port = .request w := by
  simp [State.port, hfault, hrefused, hreq]

/-- Settles O7: the step takes the request off the port and sets the mark. -/
theorem refusedRequestOnlySetsTheMark : Obligations.RefusedRequestOnlySetsTheMark := by
  intro s w rest e hfault hrefused hreq hdec
  have hstep : step s = .next s.dropRequest.refuse := by
    simp [step, port_of_requests_cons hfault hrefused hreq, hdec]
  rw [hstep, State.refuse, State.dropRequest, hreq, List.tail_cons]

end Sys2Proof.Machine
end

/-! # The memory contract: requests and steps (40_memory_contract.md) -/

/-! ## The step and the port (O6, O8) -/

section
namespace Sys2Proof.Machine

/-- A run that an error has ended gives no request to the step (R110, R210). -/
theorem port_of_fault {s : State} (hfault : s.fault ≠ none) : s.port = .faulted := by
  obtain ⟨f, hf⟩ := Option.ne_none_iff_exists'.mp hfault
  simp [State.port, hf]

/-- Nor does a run that a refusal has ended (R35, R110). -/
theorem port_of_refused {s : State} (hfault : s.fault = none) (hrefused : s.refused = true) : s.port = .refused := by
  simp [State.port, hfault, hrefused]

/-- A run that is not over waits where no request does (R21, R249). -/
theorem port_of_requests_nil {s : State} (hfault : s.fault = none) (hrefused : s.refused = false)
    (hreq : s.requests = []) : s.port = .idle := by
  simp [State.port, hfault, hrefused, hreq]

/-- Settles O6: the port gives the word, and the request leaves the input before it runs. -/
theorem stepRunsTheRequestOnThePort : Obligations.StepRunsTheRequestOnThePort := by
  intro s w rest i hfault hrefused hreq hdec
  have hstep : step s = exec i s.dropRequest := by
    simp [step, port_of_requests_cons hfault hrefused hreq, hdec]
  rw [hstep, State.dropRequest, hreq, List.tail_cons]

/-- Settles O8: one case per view of the port that gives no request. -/
theorem noStepOnceTheRunIsOver : Obligations.NoStepOnceTheRunIsOver := by
  intro s
  refine ⟨fun hfault => ?faulted, fun hfault hrefused => ?refused, fun hfault hrefused hreq => ?idle⟩
  case faulted => rw [step, port_of_fault hfault]
  case refused => rw [step, port_of_refused hfault hrefused]
  case idle => rw [step, port_of_requests_nil hfault hrefused hreq]

end Sys2Proof.Machine
end

/-! ## `LEN` and the byte requests (O18, O19, O20) -/

section
namespace Sys2Proof.Machine

/-- Settles O18: the answer holds by definition; the sizes are the powers of two that cover the regions' ends. -/
theorem lenAnswersTheSizeOfTheRoot : Obligations.LenAnswersTheSizeOfTheRoot := by
  refine ⟨fun n w => decode_of_op_zero, fun s => ⟨rfl, ?empty, ?twoRams, ?width⟩⟩
  case empty =>
    intro o hroot
    rw [hroot, size_map, endAddr_nil]
    rfl
  case twoRams =>
    intro o o' o'' r r' hroot
    have hend : (Regions.cons 0 (.ram r o' 4) (.cons 4 (.ram r' o'' 4) .nil)).endAddr = 8 := by simp [Comp.size]
    rw [hroot, size_map, hend]
    decide
  case width =>
    intro hfits
    exact hfits.trans_lt (Nat.pow_lt_pow_succ Nat.one_lt_two)

/-- `RB` answers the byte that the byte read of the root returns (R103). -/
theorem exec_rb_of_ok {s : State} {a : Nat} {b : Byte} (h : readByteC s s.root a = .ok b) :
    exec (.rb a) s = .next (s.respond (rspData (b.setWidth 32))) := by
  simp [exec, execRb, h]

/-- Settles O19: a ROM answers its image byte, a RAM its stored byte. -/
theorem byteReadAnswersTheByteReached : Obligations.ByteReadAnswersTheByteReached :=
  fun _ _ => ⟨fun _ _ _ hrom => exec_rb_of_ok (readByteC_of_rom hrom),
    fun _ _ hram => exec_rb_of_ok (readByteC_of_ram hram)⟩

/-- `WB` at an address that reaches a ROM byte stores nothing and answers OK (R104, R139). -/
theorem exec_wb_of_rom {s : State} {a id i : Nat} {w v : Byte} (h : s.root.locate a = .rom id i w) :
    exec (.wb a v) s = .next (s.respond rspDone) := by
  simp [exec, execWb, writeByteC, h]

/-- Settles O20: on a RAM the next state is one storage write and the response, on a ROM the response alone. -/
theorem byteWriteStoresInRamAndIsDiscardedByRom : Obligations.ByteWriteStoresInRamAndIsDiscardedByRom := by
  intro s a v
  refine ⟨fun r i hram => ⟨_, exec_wb_of_ram hram, rfl, ?same, fun r' i' hother => ?other⟩,
    fun id i w hrom => exec_wb_of_rom hrom⟩
  case same => rw [ramByte_respond, ramByte_setRamByte_same]
  case other => rw [ramByte_respond, ramByte_setRamByte_other hother]

end Sys2Proof.Machine
end

/-! ## `RW` (O21) -/

section
namespace Sys2Proof.Machine

/-- `RW` packs the four bytes that the byte reads at its offsets return (R105). -/
theorem exec_rw_of_ok {s : State} {a : Nat} {b : Fin 4 → Byte}
    (h : ∀ k, readByteC s s.root (byteAddr s.addrW a k) = .ok (b k)) :
    exec (.rw a) s = .next (s.respond (rspData (pack s.root.order (b 0) (b 1) (b 2) (b 3)))) := by
  have hread : ∀ k, readOffset s s.root a k = .ok (b k) := fun k => readOffset_eq_ok.mpr (h k)
  have hword : readWordC s s.root a = .ok (pack s.root.order (b 0) (b 1) (b 2) (b 3)) :=
    readWordC_eq_ok.mpr ⟨_, _, _, _, hread 0, hread 1, hread 2, hread 3, rfl⟩
  simp [exec, execRw, hword]

/-- Settles O21: each byte read returns the ROM or RAM byte that its offset reaches. -/
theorem wordReadAnswersTheFourBytesPacked : Obligations.WordReadAnswersTheFourBytesPacked := by
  intro s a b hreach
  refine exec_rw_of_ok fun k => ?_
  rcases hreach k with ⟨id, i, hrom⟩ | ⟨r, i, hram, hbyte⟩
  · exact readByteC_of_rom hrom
  · exact hbyte ▸ readByteC_of_ram hram

end Sys2Proof.Machine
end

/-! ## `WW` (O22) -/

section
namespace Sys2Proof.Machine

/-! ### What byte writes do to a RAM byte -/

section
variable {s s' t : State} {c : Comp} {a r i : Nat} {v : Byte} {l : List (Fin 4 × Byte)} {e : Option Raise}

/-- A byte write stores its byte where it reaches a RAM (R154). -/
theorem ramByte_writeByteC_same (h : writeByteC s c a v = .ok s') (hloc : c.locate a = .ram r i) :
    s'.ramByte r i = v := by
  rw [writeByteC, hloc, Except.ok.injEq] at h
  rw [← h, ramByte_setRamByte_same]

/-- A byte write leaves every RAM byte that it does not reach (R139, R154). -/
theorem ramByte_writeByteC_other (h : writeByteC s c a v = .ok s') (hloc : c.locate a ≠ .ram r i) :
    s'.ramByte r i = s.ramByte r i := by
  rcases writeByteC_cases h with ⟨_, _, _, -, rfl⟩ | ⟨r', i', hram, rfl⟩
  · rfl
  · refine ramByte_setRamByte_other ?_ s v
    rintro ⟨rfl, rfl⟩
    exact hloc hram

/-- Writes at offsets end at once, or make the first write and go on from there (R106, R211). -/
theorem writeOffsets_cons_cases {p : Fin 4 × Byte} (h : writeOffsets c a (p :: l) s = (t, e)) :
    (t = s ∧ e ≠ none) ∨
    (∃ s', writeByteC s c (byteAddr s.addrW a p.1) p.2 = .ok s' ∧ s'.addrW = s.addrW ∧
      writeOffsets c a l s' = (t, e)) := by
  unfold writeOffsets at h
  split at h
  · cases h; exact .inl ⟨rfl, nofun⟩
  next s' hs' => exact .inr ⟨s', hs', by rw [writeByteC_frame hs'], h⟩

/-- Writes at offsets leave every RAM byte that none of the offsets reaches, on an error too. -/
theorem ramByte_writeOffsets_other (h : writeOffsets c a l s = (t, e))
    (hother : ∀ p ∈ l, c.locate (byteAddr s.addrW a p.1) ≠ .ram r i) : t.ramByte r i = s.ramByte r i := by
  induction l generalizing s with
  | nil => cases h; rfl
  | cons p rest ih =>
    obtain ⟨hfirst, hrest⟩ := List.forall_mem_cons.mp hother
    rcases writeOffsets_cons_cases h with ⟨rfl, -⟩ | ⟨s', hs', haddrW, hw⟩
    · rfl
    · rw [ih hw (by rwa [haddrW]), ramByte_writeByteC_other hs' hfirst]

/-- After writes at rising offsets a RAM byte holds the byte of the last offset that reaches it. -/
theorem ramByte_writeOffsets_last {k : Fin 4} {b : Byte} (h : writeOffsets c a l s = (t, none))
    (hrising : l.Pairwise (fun p q => p.1 < q.1)) (hmem : (k, b) ∈ l)
    (hloc : c.locate (byteAddr s.addrW a k) = .ram r i)
    (hlast : ∀ j, k < j → c.locate (byteAddr s.addrW a j) ≠ .ram r i) : t.ramByte r i = b := by
  induction l generalizing s with
  | nil => cases hmem
  | cons p rest ih =>
    obtain ⟨hlater, hrising'⟩ := List.pairwise_cons.mp hrising
    rcases writeOffsets_cons_cases h with ⟨-, hne⟩ | ⟨s', hs', haddrW, hw⟩
    · exact absurd rfl hne
    rw [← haddrW] at hlast
    rcases List.mem_cons.mp hmem with rfl | hmem'
    · rw [ramByte_writeOffsets_other hw fun q hq => hlast q.1 (hlater q hq)]
      exact ramByte_writeByteC_same hs' hloc
    · exact ih hw hrising' hmem' (by rwa [haddrW]) hlast

end

/-! ### The bytes of a word in offset order -/

/-- The bytes of a word are written at rising offsets (R106). -/
theorem unpackList_rising (o : ByteOrder) (v : Word) : (unpackList o v).Pairwise (fun p q => p.1 < q.1) := by
  simp [unpackList]

/-- At every offset the byte that `unpack` gives is written (R57). -/
theorem unpack_mem_unpackList (o : ByteOrder) (v : Word) (k : Fin 4) : (k, unpack o v k) ∈ unpackList o v := by
  match k with
  | 0 => simp [unpackList]
  | 1 => simp [unpackList]
  | 2 => simp [unpackList]
  | 3 => simp [unpackList]

/-- A word write none of whose offsets reaches a hole completes (R106, R211). -/
theorem writeWordC_completes {s : State} {a : Nat} (v : Word) (h : ∀ k, (s.target a k).isHole = false) :
    ∃ t, writeWordC s s.root a v = (t, none) := by
  match hw : writeWordC s s.root a v with
  | (t, none) => exact ⟨t, rfl⟩
  | (t, some e) =>
    have hhole : s.target a e.byteIndex = .hole e.mapAddr := writeOffsets_error hw
    have hnone := h e.byteIndex
    rw [hhole] at hnone
    cases hnone

/-- Settles O22: the writes are made at rising offsets, so the last offset that reaches a byte decides it. -/
theorem wordWriteStoresItsFourBytesInOffsetOrder : Obligations.WordWriteStoresItsFourBytesInOffsetOrder := by
  intro s a v hmapped
  obtain ⟨t, hw⟩ := writeWordC_completes v hmapped
  have hexec : exec (.ww a v) s = .next (t.respond rspDone) := by simp [exec, execWw, hw]
  refine ⟨_, hexec, ?frame, fun k r i hreach hlast => ?stored, fun r i hother => ?kept⟩
  case frame =>
    rw [writeOffsets_frame hw]
    rfl
  case stored =>
    rw [ramByte_respond]
    exact ramByte_writeOffsets_last hw (unpackList_rising _ v) (unpack_mem_unpackList _ v k) hreach hlast
  case kept =>
    rw [ramByte_respond]
    exact ramByte_writeOffsets_other hw fun p _ => hother p.1

end Sys2Proof.Machine
end

/-! ## A word written and read again (O43, O44) -/

section
namespace Sys2Proof.Machine

/-- An access that ends in a RAM byte ends in no hole. -/
theorem not_isHole_of_ram {x : Target} (h : ∃ r i, x = .ram r i) : x.isHole = false := by
  obtain ⟨r, i, rfl⟩ := h
  rfl

/-- `last k` is the highest word offset that reaches the byte that offset `k` reaches (R105, R106). -/
structure LastOffset (s : State) (a : Nat) (last : Fin 4 → Fin 4) : Prop where
  same_target : ∀ k, s.target a (last k) = s.target a k
  highest : ∀ k j, last k < j → s.target a j ≠ s.target a k

/-- A word whose offsets reach RAM is written, and then every byte it reaches holds the word's byte of the last offset
there, which the `RW` that follows reads at each offset (R105, R106). -/
theorem exec_ww_then_rw {s : State} {a : Nat} {last : Fin 4 → Fin 4} (v : Word)
    (hram : ∀ k, ∃ r i, s.target a k = .ram r i) (hlast : LastOffset s a last) :
    ∃ t, exec (.ww a v) s = .next t ∧ t.root = s.root ∧
      (∀ k r i, s.target a k = .ram r i → t.ramByte r i = unpack s.root.order v (last k)) ∧
      exec (.rw a) t = .next { t with responses := t.responses ++
        [⟨0b00#2, pack s.root.order (unpack s.root.order v (last 0)) (unpack s.root.order v (last 1))
          (unpack s.root.order v (last 2)) (unpack s.root.order v (last 3)), 0⟩] } := by
  obtain ⟨t, hexec, -, hstored, -⟩ := wordWriteStoresItsFourBytesInOffsetOrder s a v fun k => not_isHole_of_ram (hram k)
  obtain ⟨hroot, haddrW⟩ := exec_keeps_config hexec
  have htarget : ∀ k, t.target a k = s.target a k := fun k => by rw [State.target, hroot, haddrW, State.target]
  have hbyte : ∀ k r i, s.target a k = .ram r i → t.ramByte r i = unpack s.root.order v (last k) :=
    fun k r i h => hstored (last k) r i ((hlast.same_target k).trans h) fun j hj => h ▸ hlast.highest k j hj
  refine ⟨t, hexec, hroot, hbyte, ?_⟩
  rw [← hroot] at hbyte ⊢
  refine wordReadAnswersTheFourBytesPacked t a (fun k => unpack t.root.order v (last k)) fun k => .inr ?_
  obtain ⟨r, i, h⟩ := hram k
  exact ⟨r, i, (htarget k).trans h, hbyte k r i h⟩

/-- Four offsets with distinct masked addresses in a valid tree reach distinct bytes, so each is the last at its own
(R71, R109). -/
theorem lastOffset_id_of_distinct {s : State} {a : Nat} (hvalid : s.root.Valid)
    (hmapped : ∀ k, (s.target a k).isHole = false)
    (hdistinct : ∀ j k : Fin 4, j ≠ k →
      byteAddr s.addrW a j % s.root.size ≠ byteAddr s.addrW a k % s.root.size) : LastOffset s a id where
  same_target _ := rfl
  highest k j hlt heq := by
    obtain ⟨hchecked, hnodup⟩ := hvalid
    exact hdistinct j k hlt.ne' (locate_inj_mod hchecked hnodup (hmapped j) heq)

/-- Settles O43: every offset is the last that reaches its byte, and packing what `unpack` gives is the word. -/
theorem wordWrittenIsReadBack : Obligations.WordWrittenIsReadBack := by
  intro s a v hvalid hram hdistinct
  have hlast : LastOffset s a id :=
    lastOffset_id_of_distinct hvalid (fun k => not_isHole_of_ram (hram k)) hdistinct
  obtain ⟨t, hww, hroot, hbyte, hrw⟩ := exec_ww_then_rw v hram hlast
  refine ⟨t, hww, ?word, fun k => ?byte⟩
  case word => simpa only [id, pack_unpack] using hrw
  case byte =>
    obtain ⟨r, i, h⟩ := hram k
    have hloc : t.root.locate (byteAddr s.addrW a k) = .ram r i := hroot ▸ h
    exact hbyte k r i h ▸ exec_rb_of_ok (readByteC_of_ram hloc)

/-- On a root RAM that fits the port the offsets of a word go round the RAM (R51, R53, R153). -/
theorem target_of_ram_root {s : State} {r n : Nat} {o : ByteOrder} (hroot : s.root = .ram r o n)
    (hpow : isPow2 n = true) (hfits : n ≤ 2 ^ s.addrW) (a : Nat) (k : Fin 4) :
    s.target a k = .ram r ((a + k.val) % n) := by
  have hsize : s.root.size = n := by rw [hroot, Comp.size]
  have hchecked : s.root.checked = true := by rw [hroot, Comp.checked, hpow]
  calc s.target a k = s.root.locate (a + k.val) :=
        portAddressesReachTheUnboundedSums s a k hchecked (hsize ▸ hfits)
    _ = .ram r ((a + k.val) % n) := by
        rw [hroot] at hchecked ⊢
        rw [locate_ram_mod hchecked, Comp.size]

/-- Settles O44: all offsets reach the one byte of a RAM of size 1, so offset 3 is the last; on one of size 2 the even
offsets reach one byte and the odd ones the other, so 2 and 3 are. -/
theorem wordsOverlapThemselvesOnSmallRams : Obligations.WordsOverlapThemselvesOnSmallRams := by
  intro s r o a v
  constructor
  case left =>
    intro hroot
    have htarget : ∀ k, s.target a k = .ram r 0 := fun k => by
      rw [target_of_ram_root hroot rfl Nat.one_le_two_pow, Nat.mod_one]
    have hlast : LastOffset s a fun _ => 3 :=
      ⟨fun k => by rw [htarget, htarget], fun k j hj => absurd hj (by omega)⟩
    obtain ⟨t, hww, -, hbyte, hrw⟩ := exec_ww_then_rw v (fun k => ⟨r, 0, htarget k⟩) hlast
    have horder : s.root.order = o := by rw [hroot, Comp.order]
    rw [horder] at hbyte hrw
    exact ⟨t, hww, hbyte 3 r 0 (htarget 3), hrw⟩
  case right =>
    intro hroot hwidth heven
    have htarget : ∀ k : Fin 4, s.target a k = .ram r (k.val % 2) := fun k => by
      rw [target_of_ram_root hroot rfl (Nat.le_self_pow (by omega) 2), Nat.add_mod, heven, Nat.zero_add, Nat.mod_mod]
    have hparity : ∀ k : Fin 4, (![2, 3, 2, 3] k : Fin 4).val % 2 = k.val % 2 := by decide
    have hafter : ∀ k j : Fin 4, ![2, 3, 2, 3] k < j → j.val % 2 ≠ k.val % 2 := by decide
    have hlast : LastOffset s a ![2, 3, 2, 3] :=
      ⟨fun k => by rw [htarget, htarget, hparity], fun k j hj => by simpa [htarget] using hafter k j hj⟩
    obtain ⟨t, hww, -, hbyte, hrw⟩ := exec_ww_then_rw v (fun k => ⟨r, _, htarget k⟩) hlast
    have horder : s.root.order = o := by rw [hroot, Comp.order]
    rw [horder] at hbyte hrw
    exact ⟨t, hww, hbyte 2 r 0 (htarget 2), hbyte 3 r 1 (htarget 3), hrw⟩

end Sys2Proof.Machine
end

/-! # ROM (41_rom.md) -/

/-! ## The image and the byte accesses (O48, O26, O27, O47) -/

section
namespace Sys2Proof.Machine

/-- Byte `i` of an image: content, then the pattern at the phase of the absolute offset (R135). -/
theorem romImage_getElem? (cb : List Byte) {pad : List Byte} (hpad : pad ≠ []) {n i : Nat} (hi : i < n) :
    (romImage cb pad n)[i]? = if i < cb.length then cb[i]? else pad[i % pad.length]? := by
  rw [romImage, List.getElem?_map, List.getElem?_range hi, Option.map_some]
  split
  next hcontent => rw [List.getElem?_eq_getElem hcontent, List.getD_eq_getElem _ _ hcontent]
  next hpadding =>
    have hphase : i % pad.length < pad.length := Nat.mod_lt _ (List.length_pos_iff.mpr hpad)
    rw [List.getElem?_eq_getElem hphase, List.getD_eq_getElem _ _ hphase]

/-- Settles O48: what is built holds the image of R135 at the effective size of R132. -/
theorem romImageIsContentThenPaddingInPhase : Obligations.RomImageIsContentThenPaddingInPhase := by
  intro p id content size o padding c hbuild
  obtain ⟨hpad, -, n, rfl, -, -, hsize⟩ := buildRom_ok hbuild
  refine ⟨_, rfl, ?explicit, ?auto, fun i hi => ?byte⟩
  case explicit =>
    rintro m rfl
    rw [romImage_length, hsize, Option.getD_some]
  case auto =>
    rintro rfl -
    rw [romImage_length, hsize, Option.getD_none]
  case byte =>
    rw [romImage_length] at hi
    exact romImage_getElem? _ hpad hi

/-- Settles O26: the masked address is an index of the image. -/
theorem romReadReturnsTheImageByte : Obligations.RomReadReturnsTheImageByte := by
  intro s id o image a hpow
  have hindex : a &&& (image.length - 1) < image.length := and_mask_lt (isPow2_pos hpow) a
  refine ⟨_, List.getElem?_eq_getElem hindex, ?_⟩
  rw [readByteC_of_rom (locate_rom id o image a), List.getD_eq_getElem _ _ hindex]

/-- Settles O27: every address of a ROM reaches a ROM byte. -/
theorem romWriteDoesNothing : Obligations.RomWriteDoesNothing := by
  intro s id o image a v
  rw [writeByteC, locate_rom]

/-- Settles O47: a ROM byte stands in the configuration, which no step changes (R28). -/
theorem romBytesNeverChange : Obligations.RomBytesNeverChange := by
  intro s t a id i v hrom hstep
  obtain ⟨hroot, -⟩ := configurationIsNeverChanged.2 s t hstep
  exact ⟨readByteC_of_rom (hroot ▸ hrom), readByteC_of_rom hrom⟩

end Sys2Proof.Machine
end

/-! ## The checks of construction (O49) -/

section
namespace Sys2Proof.Machine

/-- The range check of R131 finds a content word of `2^32` or more. -/
theorem contentOutOfRange_iff {content : Content} :
    contentOutOfRange content = true ↔ ∃ ws w, content = .words ws ∧ w ∈ ws ∧ 2 ^ 32 ≤ w := by
  cases content with
  | bytes bs => simp [contentOutOfRange]
  | words ws => simp [contentOutOfRange]

section
variable {p : Params} {id n : Nat} {content : Content} {size : Option Nat} {o : ByteOrder}
  {padding : Option (List Byte)}

/-- Without padding nothing else is checked (R136). -/
theorem buildRom_of_pad_nil (hpad : padding.getD p.romDefaultPad = []) :
    buildRom p id content size o padding = .error .emptyPadding := by
  simp [buildRom, hpad]

/-- The content words are checked before the size (R131, R137). -/
theorem buildRom_of_outOfRange (hpad : padding.getD p.romDefaultPad ≠ []) (hwide : contentOutOfRange content = true) :
    buildRom p id content size o padding = .error .wordValueOutOfRange := by
  simp [buildRom, hpad, hwide]

/-- An automatic size fails no check (R132). -/
theorem buildRom_of_auto (hpad : padding.getD p.romDefaultPad ≠ []) (hwide : ¬ contentOutOfRange content = true) :
    ∃ c, buildRom p id content none o padding = .ok c := by
  simp [buildRom, hpad, hwide]

/-- An explicit size is checked by itself and then against the content (R133, R134). -/
theorem buildRom_of_explicit (hpad : padding.getD p.romDefaultPad ≠ []) (hwide : ¬ contentOutOfRange content = true) :
    buildRom p id content (some n) o padding =
      if ¬ isPow2 n = true then .error .invalidSize
      else if n < (contentBytes o content).length then .error .contentTooLarge
      else .ok (.rom id o (romImage (contentBytes o content) (padding.getD p.romDefaultPad) n)) := by
  simp [buildRom, hpad, hwide]

end

/-- Settles O49: one equation of `buildRom` for each check. -/
theorem romChecksAreMadeInOrder : Obligations.RomChecksAreMadeInOrder := by
  intro p id content size o padding
  simp only [← contentOutOfRange_iff, ← isPow2_iff]
  refine ⟨buildRom_of_pad_nil, buildRom_of_outOfRange, ?badSize, ?large, ?built⟩
  case badSize =>
    rintro hpad hwide ⟨n, rfl, hpow⟩
    rw [buildRom_of_explicit hpad hwide, if_pos hpow]
  case large =>
    rintro hpad hwide hsize ⟨n, rfl, hlarge⟩
    have hpow : ¬ ¬ isPow2 n = true := fun h => hsize ⟨n, rfl, h⟩
    rw [buildRom_of_explicit hpad hwide, if_neg hpow, if_pos hlarge]
  case built =>
    intro hpad hwide hsize hfits
    match size with
    | none => exact buildRom_of_auto hpad hwide
    | some n =>
      have hpow : ¬ ¬ isPow2 n = true := fun h => hsize ⟨n, rfl, h⟩
      have hlarge : ¬ n < (contentBytes o content).length := fun h => hfits ⟨n, rfl, h⟩
      rw [buildRom_of_explicit hpad hwide, if_neg hpow, if_neg hlarge]
      exact ⟨_, rfl⟩

end Sys2Proof.Machine
end

/-! ## A ROM built from words, read as words (O45, O46) -/

section
namespace Sys2Proof

/-- A region ends at or below the end of its map (R176). -/
theorem region_end_le_endAddr : ∀ {rs : Regions} {base : Nat} {c : Comp}, (base, c) ∈ rs.toList →
    base + c.size ≤ rs.endAddr
  | .nil, _, _, h => by simp at h
  | .cons _ _ _, _, _, h => by
    rw [regions_toList_cons, List.mem_cons] at h
    rw [endAddr_cons]
    rcases h with hhere | hrest
    · cases hhere
      exact le_max_left _ _
    · exact (region_end_le_endAddr hrest).trans (le_max_right _ _)

/-- An address inside a region is routed to that region's child, wherever the region stands in the list, since no
other region holds the address (R174, R180). -/
theorem regions_locate_of_mem : ∀ {rs : Regions} {base m : Nat} {c : Comp}, rs.checked = true →
    (base, c) ∈ rs.toList → m < c.size → rs.locate (base + m) = c.locate m
  | .nil, _, _, _, _, h, _ => by simp at h
  | .cons b d rest, base, m, c, hchecked, h, hm => by
    obtain ⟨-, -, hdisj, hrest⟩ := checked_cons.mp hchecked
    rw [regions_toList_cons, List.mem_cons] at h
    rw [locate_cons]
    rcases h with hhere | hmem
    · cases hhere
      rw [if_pos (hits_iff.mpr ⟨by omega, by omega⟩), Nat.add_sub_cancel_left]
    · have hmiss : ¬ hits b d.size (base + m) = true := by
        have hclear : ¬ (b < base + c.size ∧ base < b + d.size) := hdisj (base, c) hmem
        rw [hits_iff]
        omega
      rw [if_neg hmiss]
      exact regions_locate_of_mem hrest hmem hm

/-- A map passes an address inside a region to the region's child: the region lies in the map's space, so the mask
leaves the address (R176, R181). -/
theorem locate_map_of_mem {o : ByteOrder} {rs : Regions} {base m : Nat} {c : Comp} (hchecked : rs.checked = true)
    (hmem : (base, c) ∈ rs.toList) (hm : m < c.size) : (Comp.map o rs).locate (base + m) = c.locate m := by
  have hinside : base + m < (Comp.map o rs).size := by
    have hend := region_end_le_endAddr hmem
    have hcover := le_nextPow2 rs.endAddr
    rw [size_map]
    omega
  rw [locate_map_mod, Nat.mod_eq_of_lt hinside, regions_locate_of_mem hchecked hmem hm]

namespace Machine

/-- Content words are split one after the other (R131). -/
theorem contentBytes_words_cons (o : ByteOrder) (w : Nat) (ws : List Nat) :
    contentBytes o (.words (w :: ws)) =
      (unpackList o (BitVec.ofNat 32 w)).map Prod.snd ++ contentBytes o (.words ws) := rfl

/-- Byte `4k + i` of the content is byte `i` of word `k` in the ROM's order (R131). -/
theorem contentBytes_words_getElem? (o : ByteOrder) {w : Nat} (i : Fin 4) : ∀ {ws : List Nat} {k : Nat},
    ws[k]? = some w → (contentBytes o (.words ws))[4 * k + i.val]? = some (unpack o (BitVec.ofNat 32 w) i)
  | [], _, h => by simp at h
  | x :: _, 0, h => by
    obtain rfl : x = w := by simpa using h
    match i with
    | 0 => rfl
    | 1 => rfl
    | 2 => rfl
    | 3 => rfl
  | x :: ws, k + 1, h => by
    have hindex : 4 * (k + 1) + i.val - 4 = 4 * k + i.val := by omega
    have hlength : ((unpackList o (BitVec.ofNat 32 x)).map Prod.snd).length = 4 := rfl
    rw [contentBytes_words_cons, List.getElem?_append_right (by omega), hlength, hindex]
    exact contentBytes_words_getElem? o i (by simpa using h)

/-- In a ROM built from words, address `4k + i` lies below the size and reaches byte `i` of word `k`. -/
theorem buildRom_words_locate {p : Params} {id : Nat} {ws : List Nat} {size : Option Nat} {o : ByteOrder}
    {pad : Option (List Byte)} {c : Comp} {k w : Nat} (hbuild : buildRom p id (.words ws) size o pad = .ok c)
    (hword : ws[k]? = some w) (i : Fin 4) :
    4 * k + i.val < c.size ∧
      c.locate (4 * k + i.val) = .rom id (4 * k + i.val) (unpack o (BitVec.ofNat 32 w) i) := by
  obtain ⟨hpad, -, n, rfl, hpow, hfits, -⟩ := buildRom_ok hbuild
  have hbyte := contentBytes_words_getElem? o i hword
  obtain ⟨hcontent, -⟩ := List.getElem?_eq_some_iff.mp hbyte
  have hlt : 4 * k + i.val < n := hcontent.trans_le hfits
  have himage := romImage_getElem? (contentBytes o (.words ws)) hpad hlt
  rw [if_pos hcontent, hbyte] at himage
  refine ⟨by simpa [Comp.size] using hlt, ?_⟩
  rw [locate_rom, romImage_length, and_mask_eq_mod hpow, Nat.mod_eq_of_lt hlt, List.getD_eq_getElem?_getD, himage,
    Option.getD_some]

/-- A ROM that is built is admitted (R24, R133). -/
theorem buildRom_checked {p : Params} {id : Nat} {content : Content} {size : Option Nat} {o : ByteOrder}
    {pad : Option (List Byte)} {c : Comp} (hbuild : buildRom p id content size o pad = .ok c) : c.checked = true :=
  build_checked (d := .rom id content size o pad) (by rw [Desc.build, hbuild])

/-- `RW` packs the ROM bytes that the four unbounded addresses reach, on a checked root that fits the port (R53, R105). -/
theorem exec_rw_of_rom_bytes {s : State} {a : Nat} {b : Fin 4 → Byte} (hchecked : s.root.checked = true)
    (hfits : s.root.size ≤ 2 ^ s.addrW) (h : ∀ i : Fin 4, ∃ id j, s.root.locate (a + i.val) = .rom id j (b i)) :
    exec (.rw a) s = .next (s.respond (rspData (pack s.root.order (b 0) (b 1) (b 2) (b 3)))) := by
  refine exec_rw_of_ok fun i => ?_
  obtain ⟨id, j, hrom⟩ := h i
  exact readByteC_of_rom ((portAddressesReachTheUnboundedSums s a i hchecked hfits).trans hrom)

/-- Settles O45: the root's order packs what the same order has unpacked. -/
theorem romWordsReadBackInTheRomsOrder : Obligations.RomWordsReadBackInTheRomsOrder := by
  intro s p id ws size o pad k w hbuild hfits hword
  have horder : s.root.order = o := by
    obtain ⟨-, -, n, hroot, -⟩ := buildRom_ok hbuild
    rw [hroot, Comp.order]
  rw [exec_rw_of_rom_bytes (buildRom_checked hbuild) hfits fun i => ⟨id, _, (buildRom_words_locate hbuild hword i).2⟩,
    horder, pack_unpack]
  rfl

/-- A word unpacked in one order and packed in the other has its bytes reversed (R58): either way round it is the word
that little order packs from the bytes that big order unpacks. -/
theorem byteAt_pack_unpack_of_ne {o o' : ByteOrder} (hne : o' ≠ o) (v : Word) (i : Fin 4) :
    byteAt (pack o' (unpack o v 0) (unpack o v 1) (unpack o v 2) (unpack o v 3)) (8 * i.val) =
      byteAt v (8 * (3 - i.val)) := by
  match o, o' with
  | .big, .big => exact absurd rfl hne
  | .little, .little => exact absurd rfl hne
  | .big, .little => exact unpack_pack .little (unpack .big v) i
  | .little, .big => exact unpack_pack .little (unpack .big v) i

/-- Settles O46: the map's order packs what the ROM's own order has unpacked. -/
theorem romWordsReverseUnderTheOtherOrder : Obligations.RomWordsReverseUnderTheOtherOrder := by
  intro s p id ws size o o' pad k w base c rs hbuild hroot hchecked hmem hne hfits hword
  refine ⟨_, byteAt_pack_unpack_of_ne hne (BitVec.ofNat 32 w), ?_⟩
  have hreach : ∀ i : Fin 4, s.root.locate (base + 4 * k + i.val) =
      .rom id (4 * k + i.val) (unpack o (BitVec.ofNat 32 w) i) := fun i => by
    obtain ⟨hlt, hloc⟩ := buildRom_words_locate hbuild hword i
    rw [hroot, Nat.add_assoc, locate_map_of_mem hchecked hmem hlt, hloc]
  have hrootChecked : s.root.checked = true := hroot ▸ checked_map.mpr hchecked
  have horder : s.root.order = o' := by rw [hroot, Comp.order]
  rw [exec_rw_of_rom_bytes hrootChecked hfits fun i => ⟨id, _, hreach i⟩, horder]
  rfl

end Machine
end Sys2Proof
end

/-! # RAM (42_ram.md) -/

/-! ## The byte accesses and the check of construction (O28, O50) -/

section
namespace Sys2Proof.Machine

/-- A byte write that reaches a RAM stores that byte (R154). -/
theorem writeByteC_of_ram {s : State} {c : Comp} {a r i : Nat} {v : Byte} (h : c.locate a = .ram r i) :
    writeByteC s c a v = .ok (s.setRamByte r i v) := by
  rw [writeByteC, h]

/-- Settles O28: every address of a RAM reaches its byte at the masked address. -/
theorem ramReadsAndWritesTheMaskedByte : Obligations.RamReadsAndWritesTheMaskedByte := by
  intro s r o n a v
  have hloc := locate_ram r o n a
  refine ⟨readByteC_of_ram hloc, _, writeByteC_of_ram hloc, writeByteC_frame (writeByteC_of_ram hloc), fun r' i' => ?_⟩
  split
  next hsame =>
    obtain ⟨rfl, rfl⟩ := hsame
    exact ramByte_setRamByte_same ..
  next hother => exact ramByte_setRamByte_other hother s v

/-- Settles O50: the check of `buildRam` is R12's power-of-two test (`isPow2_iff`). -/
theorem ramSizeMustBeAPowerOfTwo : Obligations.RamSizeMustBeAPowerOfTwo := by
  intro p id size o
  rw [← isPow2_iff]
  exact ⟨fun hbad => if_neg hbad, fun hpow => if_pos hpow⟩

end Sys2Proof.Machine
end

/-! # The memory map (43_memory_map.md) -/

/-! ## Aligned power-of-two regions (O31, O33) -/

section
namespace Sys2Proof

/-- The alignment check of R173 says that the size divides the base. -/
theorem and_mask_eq_zero_iff_dvd {n : Nat} (h : isPow2 n = true) (a : Nat) : a &&& (n - 1) = 0 ↔ n ∣ a := by
  rw [and_mask_eq_mod h, Nat.dvd_iff_mod_eq_zero]

/-- An aligned region holds the addresses with its base's quotient by the size (R178). -/
theorem hits_iff_div_eq {base n m : Nat} (hpos : 0 < n) (haligned : n ∣ base) :
    hits base n m = true ↔ m / n = base / n := by
  obtain ⟨q, rfl⟩ := haligned
  rw [hits_iff, Nat.mul_div_cancel_left q hpos, Nat.div_eq_iff hpos, Nat.mul_comm]
  omega

/-- An aligned region holds the addresses whose last multiple of the size is its base (R178). -/
theorem hits_iff_sub_mod_eq {base n m : Nat} (hpos : 0 < n) (haligned : n ∣ base) :
    hits base n m = true ↔ m - m % n = base := by
  rw [hits_iff_div_eq hpos haligned, eq_comm, Nat.div_eq_iff_eq_mul_left hpos haligned, eq_comm,
    Nat.div_mul_self_eq_mod_sub_self]

/-- Settles O31: by a power of two, shift and mask are quotient and remainder. -/
theorem guardComparesTheHighAddressBits : Obligations.GuardComparesTheHighAddressBits := by
  intro base k m haligned
  have hpos : 0 < 2 ^ k := Nat.two_pow_pos k
  rw [and_mask_eq_zero_iff_dvd (isPow2_two_pow k)] at haligned
  rw [Nat.shiftRight_eq_div_pow, Nat.shiftRight_eq_div_pow, and_mask_eq_mod (isPow2_two_pow k)]
  exact ⟨hits_iff_div_eq hpos haligned, hits_iff_sub_mod_eq hpos haligned⟩

/-- Of two aligned intervals that intersect, the one whose size divides the other's lies inside the other: it cannot
cross an end of the other, since both ends are multiples of its size (R186). -/
theorem aligned_overlap_nested {b n b' n' : Nat} (hsizes : n ∣ n') (hb : n ∣ b) (hb' : n' ∣ b')
    (hoverlap : overlaps b n b' n' = true) : b' ≤ b ∧ b + n ≤ b' + n' := by
  obtain ⟨hbelow, habove⟩ := overlaps_iff.mp hoverlap
  have hstart : n ∣ b' := hsizes.trans hb'
  have hend : n ∣ b' + n' := Nat.dvd_add hstart hsizes
  exact ⟨Nat.le_of_lt_add_of_dvd habove hstart hb,
    Nat.le_of_lt_add_of_dvd (Nat.add_lt_add_right hbelow n) (Nat.dvd_add_self_right.mpr hb) hend⟩

/-- The overlap check does not depend on the order of the two intervals (R174). -/
theorem overlaps_comm (b n b' n' : Nat) : overlaps b n b' n' = overlaps b' n' b n := by
  rw [overlaps, overlaps, Bool.and_comm]

/-- Settles O33: of two powers of two one divides the other. -/
theorem alignedRegionsAreDisjointOrNested : Obligations.AlignedRegionsAreDisjointOrNested := by
  intro b k b' k' hb hb'
  rw [← Nat.dvd_iff_mod_eq_zero] at hb hb'
  rw [← Bool.not_eq_true, or_iff_not_imp_left, not_not]
  intro hoverlap
  rcases Nat.le_total k k' with hle | hle
  · exact .inr (aligned_overlap_nested (Nat.pow_dvd_pow 2 hle) hb hb' hoverlap)
  · rw [overlaps_comm] at hoverlap
    exact .inl (aligned_overlap_nested (Nat.pow_dvd_pow 2 hle) hb' hb hoverlap)

end Sys2Proof
end

/-! ## The router (O29, O30) -/

section
namespace Sys2Proof

@[simp] theorem route_nil (m : Nat) : Regions.nil.route m = none := rfl

theorem route_cons (b : Nat) (c : Comp) (rs : Regions) (m : Nat) :
    (Regions.cons b c rs).route m = if hits b c.size m then some (b, c) else rs.route m := rfl

/-- The recursive decoder goes on in the routed child at the local offset, or stops in a hole (R181, R183). -/
theorem regions_locate_eq_route : ∀ (rs : Regions) (m : Nat),
    rs.locate m = (rs.route m).elim (.hole m) (fun r => r.2.locate (m - r.1))
  | .nil, m => by rw [locate_nil, route_nil, Option.elim_none]
  | .cons b c rest, m => by
    rw [locate_cons, route_cons]
    split
    · rfl
    · exact regions_locate_eq_route rest m

/-- A region that is routed to stands in the list and holds the address (R179). -/
theorem mem_and_hits_of_route : ∀ {rs : Regions} {m base : Nat} {c : Comp}, rs.route m = some (base, c) →
    (base, c) ∈ rs.toList ∧ hits base c.size m = true
  | .nil, _, _, _, h => by simp at h
  | .cons _ _ _, _, _, _, h => by
    rw [route_cons] at h
    rw [regions_toList_cons]
    split at h
    next hhit =>
      cases h
      exact ⟨List.mem_cons_self, hhit⟩
    next =>
      obtain ⟨hmem, hhit⟩ := mem_and_hits_of_route h
      exact ⟨List.mem_cons_of_mem _ hmem, hhit⟩

/-- In an admitted list the region that holds an address is routed to, wherever it stands, since no region before it
holds the address too (R174, R179). -/
theorem route_of_mem_of_hits : ∀ {rs : Regions} {m base : Nat} {c : Comp}, rs.checked = true →
    (base, c) ∈ rs.toList → hits base c.size m = true → rs.route m = some (base, c)
  | .nil, _, _, _, _, hmem, _ => by simp at hmem
  | .cons b d rest, m, base, c, hchecked, hmem, hhit => by
    obtain ⟨-, -, hdisj, hrest⟩ := checked_cons.mp hchecked
    rw [regions_toList_cons, List.mem_cons] at hmem
    rw [route_cons]
    rcases hmem with hhere | hmem
    · cases hhere
      rw [if_pos hhit]
    · have hmiss : ¬ hits b d.size m = true := by
        have hclear : ¬ (b < base + c.size ∧ base < b + d.size) := hdisj (base, c) hmem
        rw [hits_iff] at hhit ⊢
        omega
      rw [if_neg hmiss]
      exact route_of_mem_of_hits hrest hmem hhit

/-- An admitted list routes an address to a region exactly when the region holds it (R174, R179). -/
theorem route_eq_some_iff {rs : Regions} {m base : Nat} {c : Comp} (hchecked : rs.checked = true) :
    rs.route m = some (base, c) ↔ (base, c) ∈ rs.toList ∧ hits base c.size m = true :=
  ⟨mem_and_hits_of_route, fun ⟨hmem, hhit⟩ => route_of_mem_of_hits hchecked hmem hhit⟩

/-- Nothing is routed to exactly when no region of the list holds the address (R183). -/
theorem route_eq_none_iff {m : Nat} : ∀ {rs : Regions},
    rs.route m = none ↔ ∀ r ∈ rs.toList, ¬ hits r.1 r.2.size m = true
  | .nil => by simp
  | .cons b c rest => by
    rw [route_cons, regions_toList_cons, List.forall_mem_cons]
    split
    next hhit => simp [hhit]
    next hmiss =>
      rw [route_eq_none_iff]
      exact (and_iff_right hmiss).symm

/-- A region of an admitted list has an admitted child, whose size divides the base (R173). -/
theorem child_checked_and_aligned_of_mem : ∀ {rs : Regions} {base : Nat} {c : Comp}, rs.checked = true →
    (base, c) ∈ rs.toList → c.checked = true ∧ c.size ∣ base
  | .nil, _, _, _, h => by simp at h
  | .cons _ _ _, _, _, hchecked, h => by
    obtain ⟨hchild, haligned, -, hrest⟩ := checked_cons.mp hchecked
    rw [regions_toList_cons, List.mem_cons] at h
    rcases h with hhere | hmem
    · cases hhere
      exact ⟨hchild, (and_mask_eq_zero_iff_dvd (size_isPow2 hchild) _).mp haligned⟩
    · exact child_checked_and_aligned_of_mem hrest hmem

/-- Settles O30: the local offset is the remainder of the address, since the base is its last multiple of the size. -/
theorem routerAnswersTheOneRegionThatHits : Obligations.RouterAnswersTheOneRegionThatHits := by
  intro rs m hchecked
  refine ⟨fun base child => ?routed, fun base child hroute => ?offset, ?none⟩
  case routed => rw [← hits_iff, route_eq_some_iff hchecked]
  case offset =>
    obtain ⟨hmem, hhit⟩ := mem_and_hits_of_route hroute
    obtain ⟨hchild, haligned⟩ := child_checked_and_aligned_of_mem hchecked hmem
    have hpow := size_isPow2 hchild
    have hbase : m - m % child.size = base := (hits_iff_sub_mod_eq (isPow2_pos hpow) haligned).mp hhit
    have hle : m % child.size ≤ m := Nat.mod_le m child.size
    rw [and_mask_eq_mod hpow]
    rw [hits_iff] at hhit
    omega
  case none => simp only [← hits_iff, route_eq_none_iff]

namespace Machine

section
variable {c d : Comp} {a a' : Nat} (h : c.locate a = d.locate a')
include h

/-- Two components whose decoders end alike read the same byte, or raise the same error. -/
theorem readByteC_eq_of_locate_eq (s : State) : readByteC s c a = readByteC s d a' := by
  rw [readByteC, h, readByteC]

/-- Two components whose decoders end alike write the same byte, or raise the same error. -/
theorem writeByteC_eq_of_locate_eq (s : State) (v : Byte) : writeByteC s c a v = writeByteC s d a' v := by
  rw [writeByteC, h, writeByteC]

end

/-- Settles O29: byte accesses follow the decoder, which follows the router. -/
theorem mapByteAccessRoutesToTheChild : Obligations.MapByteAccessRoutesToTheChild := by
  intro s o rs a v m
  have hloc : (Comp.map o rs).locate a = (rs.route m).elim (.hole m) (fun r => r.2.locate (m - r.1)) :=
    (locate_map o rs a).trans (regions_locate_eq_route rs m)
  refine ⟨fun base child hroute => ?child, fun hroute => ?hole⟩
  case child =>
    rw [hroute, Option.elim_some] at hloc
    exact ⟨readByteC_eq_of_locate_eq hloc s, writeByteC_eq_of_locate_eq hloc s v⟩
  case hole =>
    rw [hroute, Option.elim_none] at hloc
    exact ⟨readByteC_eq_error.mpr hloc, writeByteC_eq_error.mpr hloc⟩

end Machine
end Sys2Proof
end

/-! ## The size of a map and its reach (O41, O32) -/

section
namespace Sys2Proof

/-- `END` is the least number that no region's end exceeds (R176). -/
theorem endAddr_le_iff {n : Nat} : ∀ {rs : Regions}, rs.endAddr ≤ n ↔ ∀ r ∈ rs.toList, r.1 + r.2.size ≤ n
  | .nil => by simp
  | .cons _ _ _ => by
    rw [endAddr_cons, regions_toList_cons, List.forall_mem_cons, max_le_iff, endAddr_le_iff]

/-- A region lies in the space of its map (R176). -/
theorem region_end_le_size {o : ByteOrder} {rs : Regions} {base : Nat} {c : Comp} (h : (base, c) ∈ rs.toList) :
    base + c.size ≤ (Comp.map o rs).size := by
  rw [size_map]
  exact (region_end_le_endAddr h).trans (le_nextPow2 _)

/-- Settles O41: the size is the least power of two that covers `END`. -/
theorem mapSizeIsTheSmallestThatCovers : Obligations.MapSizeIsTheSmallestThatCovers := by
  intro o rs
  refine ⟨rfl, ?power, fun r hr => region_end_le_size hr, fun j hcover => ?least, ?empty⟩
  case power =>
    rw [size_map]
    exact isPow2_iff.mp (nextPow2_isPow2 _)
  case least =>
    rw [size_map, nextPow2_le_two_pow_iff]
    exact endAddr_le_iff.mpr hcover
  case empty =>
    rintro rfl
    rw [size_map, endAddr_nil]
    rfl

/-- Settles O32: the region lies in the map's space, and of the addresses of the space only `BASE + k` is routed to it
with local offset `k`. -/
theorem everyByteOfEveryChildIsReached : Obligations.EveryByteOfEveryChildIsReached := by
  intro o rs base child k hchecked hmem hk
  have hend : base + child.size ≤ (Comp.map o rs).size := region_end_le_size hmem
  refine ⟨by omega, fun a => ?_⟩
  intro m
  refine ⟨?routed, fun hm => ?access⟩
  case routed =>
    rw [route_eq_some_iff hchecked, hits_iff]
    constructor
    · rintro ⟨⟨-, hbase, -⟩, hoffset⟩
      omega
    · intro hm
      exact ⟨⟨hmem, by omega, by omega⟩, by omega⟩
  case access =>
    calc (Comp.map o rs).locate a = rs.locate m := locate_map o rs a
      _ = child.locate k := by rw [hm, regions_locate_of_mem hchecked hmem hk]

end Sys2Proof
end

/-! ## The checks of the bindings (O51, O52) -/

section
namespace Sys2Proof.Machine

/-- The interval that a binding to a built child is placed as (R173). -/
def bindingInterval (x : Int × Comp) : Nat × Nat := (x.1.toNat, x.2.size)

/-- The intervals `p` and `q` pass the overlap check (R174). -/
def Clear (p q : Nat × Nat) : Prop := overlaps p.1 p.2 q.1 q.2 = false

/-- Two bindings at natural bases pass the overlap check exactly when one ends at or below the other's base (R174). -/
theorem clear_bindingInterval_iff {x y : Int × Comp} (hx : 0 ≤ x.1) (hy : 0 ≤ y.1) :
    Clear (bindingInterval y) (bindingInterval x) ↔
      x.1 + (x.2.size : Int) ≤ y.1 ∨ y.1 + (y.2.size : Int) ≤ x.1 := by
  rw [Clear, ← Bool.not_eq_true, overlaps_iff, bindingInterval, bindingInterval]
  omega

/-- What the checks ask of bindings that follow the intervals `placed`: natural aligned bases (R172, R173), and
intervals that are clear of `placed` and of one another (R174). -/
structure Placeable (placed : List (Nat × Nat)) (children : List (Int × Comp)) : Prop where
  base_nonneg : ∀ x ∈ children, 0 ≤ x.1
  base_aligned : ∀ x ∈ children, x.1.toNat &&& (x.2.size - 1) = 0
  clear_of_placed : ∀ x ∈ children, ∀ q ∈ placed, Clear (bindingInterval x) q
  disjoint : children.Pairwise (fun x y => Clear (bindingInterval y) (bindingInterval x))

/-- The first binding is checked against `placed` and then stands among the intervals for the others (R175). -/
theorem placeable_cons_iff {placed : List (Nat × Nat)} {x : Int × Comp} {rest : List (Int × Comp)} :
    Placeable placed (x :: rest) ↔
      (0 ≤ x.1 ∧ x.1.toNat &&& (x.2.size - 1) = 0 ∧ ∀ q ∈ placed, Clear (bindingInterval x) q) ∧
        Placeable (placed ++ [bindingInterval x]) rest := by
  constructor
  · rintro ⟨hbases, haligned, hclear, hdisjoint⟩
    obtain ⟨hbase, hbasesRest⟩ := List.forall_mem_cons.mp hbases
    obtain ⟨hmask, halignedRest⟩ := List.forall_mem_cons.mp haligned
    obtain ⟨hclearHere, hclearRest⟩ := List.forall_mem_cons.mp hclear
    obtain ⟨hlater, hdisjointRest⟩ := List.pairwise_cons.mp hdisjoint
    refine ⟨⟨hbase, hmask, hclearHere⟩, hbasesRest, halignedRest, fun y hy => ?_, hdisjointRest⟩
    exact List.forall_mem_append.mpr ⟨hclearRest y hy, List.forall_mem_singleton.mpr (hlater y hy)⟩
  · rintro ⟨⟨hbase, hmask, hclearHere⟩, hbases, haligned, hclear, hdisjoint⟩
    exact ⟨List.forall_mem_cons.mpr ⟨hbase, hbases⟩, List.forall_mem_cons.mpr ⟨hmask, haligned⟩,
      List.forall_mem_cons.mpr ⟨hclearHere, fun y hy => (List.forall_mem_append.mp (hclear y hy)).1⟩,
      List.pairwise_cons.mpr
        ⟨fun y hy => List.forall_mem_singleton.mp (List.forall_mem_append.mp (hclear y hy)).2, hdisjoint⟩⟩

/-- Bindings are placed exactly when they pass their checks (R175). -/
theorem exists_placeAll_iff {children : List (Int × Comp)} : ∀ {placed : List (Nat × Nat)},
    (∃ rs, placeAll placed children = .ok rs) ↔ Placeable placed children := by
  induction children with
  | nil =>
    intro placed
    exact ⟨fun _ => ⟨by simp, by simp, by simp, .nil⟩, fun _ => ⟨_, rfl⟩⟩
  | cons x rest ih =>
    obtain ⟨base, child⟩ := x
    intro placed
    rw [placeable_cons_iff, ← ih]
    constructor
    · rintro ⟨rs, h⟩
      obtain ⟨b, rs', hcheck, hrest, -⟩ := placeAll_cons_eq_ok.mp h
      obtain ⟨hbase, hmask, hclear, rfl⟩ := checkBinding_eq_ok.mp hcheck
      exact ⟨⟨hbase, hmask, hclear⟩, rs', hrest⟩
    · rintro ⟨⟨hbase, hmask, hclear⟩, rs', hrest⟩
      exact ⟨_, placeAll_cons_eq_ok.mpr
        ⟨_, rs', checkBinding_eq_ok.mpr ⟨hbase, hmask, hclear, rfl⟩, hrest, rfl⟩⟩

/-- A map is built exactly from bindings that pass their checks (R170 to R175). -/
theorem exists_buildMap_iff {o : ByteOrder} {children : List (Int × Comp)} :
    (∃ c, buildMap o children = .ok c) ↔ Placeable [] children := by
  rw [← exists_placeAll_iff]
  constructor
  · rintro ⟨c, h⟩
    obtain ⟨rs, hplace, -⟩ := buildMap_eq_ok.mp h
    exact ⟨rs, hplace⟩
  · rintro ⟨rs, hplace⟩
    exact ⟨_, buildMap_eq_ok.mpr ⟨rs, hplace, rfl⟩⟩

/-- The bindings are placed in list order (R26, R170). -/
theorem placeAll_toList {children : List (Int × Comp)} : ∀ {placed : List (Nat × Nat)} {rs : Regions},
    placeAll placed children = .ok rs → rs.toList = children.map (fun x => (x.1.toNat, x.2)) := by
  induction children with
  | nil =>
    intro placed rs h
    cases h
    rfl
  | cons x rest ih =>
    obtain ⟨base, child⟩ := x
    intro placed rs h
    obtain ⟨b, rs', hcheck, hrest, rfl⟩ := placeAll_cons_eq_ok.mp h
    obtain ⟨-, -, -, rfl⟩ := checkBinding_eq_ok.mp hcheck
    rw [regions_toList_cons, ih hrest, List.map_cons]

/-- For admitted children the checks ask for natural bases that the sizes divide and for disjoint intervals (R172 to
R174). -/
theorem placeable_nil_iff {children : List (Int × Comp)} (hchildren : ∀ x ∈ children, x.2.checked = true) :
    Placeable [] children ↔
      (∀ x ∈ children, 0 ≤ x.1 ∧ x.2.size ∣ x.1.toNat) ∧
        children.Pairwise (fun x y => x.1 + (x.2.size : Int) ≤ y.1 ∨ y.1 + (y.2.size : Int) ≤ x.1) := by
  have hmask : ∀ x ∈ children, x.1.toNat &&& (x.2.size - 1) = 0 ↔ x.2.size ∣ x.1.toNat := fun x hx =>
    and_mask_eq_zero_iff_dvd (size_isPow2 (hchildren x hx)) _
  have hdisjoint (hbase : ∀ x ∈ children, 0 ≤ x.1) :
      children.Pairwise (fun x y => Clear (bindingInterval y) (bindingInterval x)) ↔
        children.Pairwise (fun x y => x.1 + (x.2.size : Int) ≤ y.1 ∨ y.1 + (y.2.size : Int) ≤ x.1) :=
    List.Pairwise.iff_of_mem fun hx hy => clear_bindingInterval_iff (hbase _ hx) (hbase _ hy)
  constructor
  · rintro ⟨hbase, haligned, -, hclear⟩
    exact ⟨fun x hx => ⟨hbase x hx, (hmask x hx).mp (haligned x hx)⟩, (hdisjoint hbase).mp hclear⟩
  · rintro ⟨hbinding, hclear⟩
    obtain ⟨hbase, hdvd⟩ := forall₂_and.mp hbinding
    exact ⟨hbase, fun x hx => (hmask x hx).mpr (hdvd x hx), by simp, (hdisjoint hbase).mpr hclear⟩

/-- Settles O51: the checks of the bindings, and the order in which they are placed. -/
theorem mapIsBuiltExactlyFromAlignedDisjointBindings : Obligations.MapIsBuiltExactlyFromAlignedDisjointBindings := by
  intro o children hchildren
  refine ⟨exists_buildMap_iff.trans (placeable_nil_iff hchildren), fun c hbuild => ?_⟩
  obtain ⟨rs, hplace, rfl⟩ := buildMap_eq_ok.mp hbuild
  exact ⟨rs, rfl, placeAll_toList hplace⟩

/-- The first binding that fails decides: what follows placed bindings is reported, whatever comes after it (R175). -/
theorem placeAll_append_error {before after : List (Int × Comp)} {base : Int} {child : Comp} {e : ConfigError} :
    ∀ {placed : List (Nat × Nat)}, Placeable placed before →
      checkBinding (placed ++ before.map bindingInterval) base child.size = .error e →
      placeAll placed (before ++ (base, child) :: after) = .error e := by
  induction before with
  | nil =>
    intro placed _ he
    rw [List.map_nil, List.append_nil] at he
    rw [List.nil_append, placeAll, he]
  | cons x rest ih =>
    obtain ⟨base', child'⟩ := x
    intro placed hplaceable he
    obtain ⟨⟨hbase, hmask, hclear⟩, hrest⟩ := placeable_cons_iff.mp hplaceable
    have hcheck : checkBinding placed base' child'.size = .ok base'.toNat :=
      checkBinding_eq_ok.mpr ⟨hbase, hmask, hclear, rfl⟩
    have hfails : placeAll (placed ++ [bindingInterval (base', child')]) (rest ++ (base, child) :: after) = .error e :=
      ih hrest (by simpa using he)
    rw [bindingInterval] at hfails
    rw [List.cons_append, placeAll, hcheck]
    simp only [hfails]

/-- A map whose first failing binding fails with `e` is refused with `e` (R175). -/
theorem buildMap_append_error {o : ByteOrder} {before after : List (Int × Comp)} {base : Int} {child : Comp}
    {e : ConfigError} (hbefore : ∃ c, buildMap o before = .ok c)
    (he : checkBinding (before.map bindingInterval) base child.size = .error e) :
    buildMap o (before ++ (base, child) :: after) = .error e := by
  rw [buildMap, placeAll_append_error (exists_buildMap_iff.mp hbefore) (by simpa using he)]

section
variable {placed : List (Nat × Nat)} {base : Int} {size : Nat}

/-- A negative base is refused before any other check (R172). -/
theorem checkBinding_of_neg (hneg : base < 0) : checkBinding placed base size = .error .negativeBase :=
  if_pos hneg

/-- Alignment is checked after the base's sign and before the overlap (R173). -/
theorem checkBinding_of_unaligned (hbase : 0 ≤ base) (hmask : base.toNat &&& (size - 1) ≠ 0) :
    checkBinding placed base size = .error .invalidAlignment := by
  rw [checkBinding, if_neg hbase.not_gt, if_pos hmask]

/-- An aligned interval that is not clear of one before it is refused (R174). -/
theorem checkBinding_of_not_clear (hbase : 0 ≤ base) (hmask : base.toNat &&& (size - 1) = 0)
    (hclash : ∃ q ∈ placed, ¬ Clear (base.toNat, size) q) :
    checkBinding placed base size = .error .overlappingRegion := by
  have hany : placed.any (fun q => overlaps base.toNat size q.1 q.2) = true := by
    obtain ⟨q, hq, hoverlap⟩ := hclash
    exact List.any_eq_true.mpr ⟨q, hq, Bool.not_eq_false _ ▸ hoverlap⟩
  rw [checkBinding, if_neg hbase.not_gt, if_neg (not_not.mpr hmask), if_pos hany]

end

/-- Settles O52: the failing check of the binding is the map's answer, since the bindings before it are placed. -/
theorem bindingChecksAreMadeInOrder : Obligations.BindingChecksAreMadeInOrder := by
  intro o before after base child hbefore clash
  refine ⟨fun hneg => ?negative, fun hbase hmask => ?unaligned, fun hbase hmask hclash => ?overlapping⟩
  case negative => exact buildMap_append_error hbefore (checkBinding_of_neg hneg)
  case unaligned => exact buildMap_append_error hbefore (checkBinding_of_unaligned hbase hmask)
  case overlapping =>
    obtain ⟨x, hx, hbelow, habove⟩ := hclash
    have hplacedBase : 0 ≤ x.1 := (exists_buildMap_iff.mp hbefore).base_nonneg x hx
    have hnotClear : ¬ Clear (bindingInterval (base, child)) (bindingInterval x) := by
      rw [clear_bindingInterval_iff hplacedBase hbase]
      dsimp only
      omega
    exact buildMap_append_error hbefore
      (checkBinding_of_not_clear hbase hmask ⟨_, List.mem_map_of_mem hx, hnotClear⟩)

end Sys2Proof.Machine
end

/-! # Exceptions (60_exceptions.md) -/

/-! ## Who can raise, and what the error leaves (O16, O23) -/

section
namespace Sys2Proof.Machine

/-- Every address of a ROM reaches a byte of it (R138). -/
theorem locate_rom_ne_hole (id : Nat) (o : ByteOrder) (image : List Byte) (a m : Nat) :
    (Comp.rom id o image).locate a ≠ .hole m := by
  rw [locate_rom]
  exact nofun

/-- Every address of a RAM reaches a byte of it (R153). -/
theorem locate_ram_ne_hole (id : Nat) (o : ByteOrder) (size a m : Nat) :
    (Comp.ram id o size).locate a ≠ .hole m := by
  rw [locate_ram]
  exact nofun

/-- Settles O16: an error comes from a hole of the root, and of a request other than `LEN`. -/
theorem noErrorOnARomOrRamRootNorForLen : Obligations.NoErrorOnARomOrRamRootNorForLen := by
  intro i s t hcannot hexec
  obtain ⟨u, hu, -, ⟨q, -, -, rfl⟩ | ⟨e, hlen, -, ⟨a, hhole⟩, -⟩⟩ := exec_cases hexec
  · rw [respond_fault, hu]
  · rcases hcannot with hi | ⟨id, o, image, hroot⟩ | ⟨id, o, n, hroot⟩
    · exact absurd hi hlen
    · exact absurd (hroot ▸ hhole) (locate_rom_ne_hole id o image a _)
    · exact absurd (hroot ▸ hhole) (locate_ram_ne_hole id o n a _)

/-- The first error of a run sets `FAULT` to its own record (R34, R209). -/
theorem takeUnmapped_of_fault_none {s : State} (hfault : s.fault = none) (op : BitVec 3) (a : Nat) (e : Raise) :
    s.takeUnmapped op a e =
      { s with fault := some (faultRecord op a e), responses := s.responses ++ [rspUnmapped] } := by
  rw [State.takeUnmapped, hfault, Option.getD_none]

/-- `RB` at an address that reaches a hole takes the error (R103, R110). -/
theorem exec_rb_of_hole {s : State} {a m : Nat} (h : s.root.locate a = .hole m) :
    exec (.rb a) s = .next (s.takeUnmapped (opcode (.rb a)) a ⟨0, m⟩) := by
  simp [exec, execRb, readByteC_eq_error.mpr h]

/-- `WB` at an address that reaches a hole takes the error and stores nothing (R104, R110). -/
theorem exec_wb_of_hole {s : State} {a m : Nat} (v : Byte) (h : s.root.locate a = .hole m) :
    exec (.wb a v) s = .next (s.takeUnmapped (opcode (.wb a v)) a ⟨0, m⟩) := by
  simp [exec, execWb, writeByteC_eq_error.mpr h]

/-- Settles O23: both byte requests take the error on the state they found. -/
theorem byteAccessToAHoleTakesUnmappedAddress : Obligations.ByteAccessToAHoleTakesUnmappedAddress := by
  intro s a m v hfault hhole
  rw [exec_rb_of_hole hhole, exec_wb_of_hole v hhole, takeUnmapped_of_fault_none hfault,
    takeUnmapped_of_fault_none hfault]
  exact ⟨rfl, rfl⟩

end Sys2Proof.Machine
end

/-! ## Byte accesses that reach no hole -/

section
namespace Sys2Proof.Machine

/-- A byte read that reaches no hole returns a byte (R100). -/
theorem exists_readByteC_of_not_isHole (s : State) {c : Comp} {a : Nat} (h : (c.locate a).isHole = false) :
    ∃ b, readByteC s c a = .ok b := by
  match hread : readByteC s c a with
  | .ok b => exact ⟨b, rfl⟩
  | .error m =>
    rw [readByteC_eq_error.mp hread] at h
    cases h

/-- A byte write that reaches no hole completes (R101). -/
theorem exists_writeByteC_of_not_isHole (s : State) {c : Comp} {a : Nat} (v : Byte)
    (h : (c.locate a).isHole = false) : ∃ s', writeByteC s c a v = .ok s' := by
  match hwrite : writeByteC s c a v with
  | .ok s' => exact ⟨s', rfl⟩
  | .error m =>
    rw [writeByteC_eq_error.mp hwrite] at h
    cases h

end Sys2Proof.Machine
end

/-! ## `RW` at a hole (O24) -/

section
namespace Sys2Proof.Machine

/-- The first byte read that fails ends the word read with its error (R105, R211). -/
theorem readWordC_of_first_error {s : State} {c : Comp} {a : Nat} {k : Fin 4} {e : Raise}
    (hbefore : ∀ j, j < k → ∃ b, readOffset s c a j = .ok b) (hk : readOffset s c a k = .error e) :
    readWordC s c a = .error e := by
  match k with
  | 0 => simp [readWordC, hk]
  | 1 =>
    obtain ⟨b0, h0⟩ := hbefore 0 (by decide)
    simp [readWordC, h0, hk]
  | 2 =>
    obtain ⟨b0, h0⟩ := hbefore 0 (by decide)
    obtain ⟨b1, h1⟩ := hbefore 1 (by decide)
    simp [readWordC, h0, h1, hk]
  | 3 =>
    obtain ⟨b0, h0⟩ := hbefore 0 (by decide)
    obtain ⟨b1, h1⟩ := hbefore 1 (by decide)
    obtain ⟨b2, h2⟩ := hbefore 2 (by decide)
    simp [readWordC, h0, h1, h2, hk]

/-- Settles O24: the reads before the hole return bytes, so the read at the hole is the first that fails. -/
theorem wordReadStopsAtTheFirstHole : Obligations.WordReadStopsAtTheFirstHole := by
  intro s a m k hfault hmapped hhole
  have hbefore : ∀ j, j < k → ∃ b, readOffset s s.root a j = .ok b := fun j hj =>
    (exists_readByteC_of_not_isHole s (hmapped j hj)).imp fun _ => readOffset_eq_ok.mpr
  have herror : readOffset s s.root a k = .error ⟨k, m⟩ := readOffset_eq_error.mpr ⟨rfl, hhole⟩
  have hexec : exec (.rw a) s = .next (s.takeUnmapped (opcode (.rw a)) a ⟨k, m⟩) := by
    simp [exec, execRw, readWordC_of_first_error hbefore herror]
  rw [hexec, takeUnmapped_of_fault_none hfault]
  rfl

end Sys2Proof.Machine
end

/-! ## `WW` into a hole (O25) -/

section
namespace Sys2Proof.Machine

section
variable {s t : State} {c : Comp} {a m r i : Nat} {before after : List (Fin 4 × Byte)}

/-- Writes at offsets stop at the first that reaches a hole, and those before it are all made (R106, R211). -/
theorem writeOffsets_of_first_hole {k : Fin 4} (b : Byte)
    (hmapped : ∀ p ∈ before, (c.locate (byteAddr s.addrW a p.1)).isHole = false)
    (hhole : c.locate (byteAddr s.addrW a k) = .hole m) :
    ∃ t, writeOffsets c a before s = (t, none) ∧
      writeOffsets c a (before ++ (k, b) :: after) s = (t, some ⟨k, m⟩) := by
  induction before generalizing s with
  | nil => exact ⟨s, rfl, by simp [writeOffsets, writeByteC_eq_error.mpr hhole]⟩
  | cons p rest ih =>
    obtain ⟨hfirst, hrest⟩ := List.forall_mem_cons.mp hmapped
    obtain ⟨s', hs'⟩ := exists_writeByteC_of_not_isHole s p.2 hfirst
    have haddrW : s'.addrW = s.addrW := by rw [writeByteC_frame hs']
    obtain ⟨t, hmade, hstops⟩ := ih (by rwa [haddrW]) (by rwa [haddrW])
    exact ⟨t, by simpa [writeOffsets, hs'] using hmade, by simpa [writeOffsets, hs'] using hstops⟩

/-- A byte written at an offset stays where no later write reaches it. -/
theorem ramByte_writeOffsets_append_cons {j : Fin 4} {b : Byte}
    (h : writeOffsets c a (before ++ (j, b) :: after) s = (t, none))
    (hloc : c.locate (byteAddr s.addrW a j) = .ram r i)
    (hlater : ∀ p ∈ after, c.locate (byteAddr s.addrW a p.1) ≠ .ram r i) : t.ramByte r i = b := by
  induction before generalizing s with
  | nil =>
    rcases writeOffsets_cons_cases h with ⟨-, hne⟩ | ⟨s', hs', haddrW, hw⟩
    · exact absurd rfl hne
    · rw [ramByte_writeOffsets_other hw (by rwa [haddrW]), ramByte_writeByteC_same hs' hloc]
  | cons p rest ih =>
    rcases writeOffsets_cons_cases h with ⟨-, hne⟩ | ⟨s', -, haddrW, hw⟩
    · exact absurd rfl hne
    · exact ih hw (by rwa [haddrW]) (by rwa [haddrW])

end

/-- In a list of rising offsets, what stands before an entry has smaller offsets and what stands after it larger. -/
theorem rising_append_cons {before after : List (Fin 4 × Byte)} {p : Fin 4 × Byte}
    (h : (before ++ p :: after).Pairwise (fun p q => p.1 < q.1)) :
    before.Pairwise (fun p q => p.1 < q.1) ∧ (∀ q ∈ before, q.1 < p.1) ∧ ∀ q ∈ after, p.1 < q.1 := by
  obtain ⟨hbefore, hafter, hcross⟩ := List.pairwise_append.mp h
  exact ⟨hbefore, fun q hq => hcross q hq p List.mem_cons_self, (List.pairwise_cons.mp hafter).1⟩

/-- The bytes of a word before offset `k` are written in rising order, and they are those of the offsets below `k`. -/
theorem unpackList_split (o : ByteOrder) (v : Word) (k : Fin 4) :
    ∃ before after, unpackList o v = before ++ (k, unpack o v k) :: after ∧
      before.Pairwise (fun p q => p.1 < q.1) ∧ (∀ p ∈ before, p.1 < k) ∧
      ∀ j, j < k → (j, unpack o v j) ∈ before := by
  obtain ⟨before, after, hsplit⟩ := List.append_of_mem (unpack_mem_unpackList o v k)
  obtain ⟨hrising, hbelow, habove⟩ := rising_append_cons (hsplit ▸ unpackList_rising o v)
  refine ⟨before, after, hsplit, hrising, hbelow, fun j hj => ?_⟩
  rcases List.mem_append.mp (hsplit ▸ unpack_mem_unpackList o v j) with hmem | hmem
  · exact hmem
  rcases List.mem_cons.mp hmem with heq | hafter
  · exact absurd (congrArg Prod.fst heq) hj.ne
  · exact absurd (habove _ hafter) hj.asymm

/-- Settles O25: the writes below the hole's offset are made at rising offsets, and the error is taken on the state they
leave. -/
theorem wordWriteIntoAHoleKeepsTheEarlierBytes : Obligations.WordWriteIntoAHoleKeepsTheEarlierBytes := by
  intro s a m v k hfault hmapped hhole
  obtain ⟨before, after, hsplit, hrising, hbelow, hbefore⟩ := unpackList_split s.root.order v k
  obtain ⟨t, hmade, hstops⟩ := writeOffsets_of_first_hole (after := after) (unpack s.root.order v k)
    (fun p hp => hmapped p.1 (hbelow p hp)) hhole
  have hword : writeWordC s s.root a v = (t, some ⟨k, m⟩) := by rw [writeWordC, hsplit, hstops]
  have hexec : exec (.ww a v) s = .next (t.takeUnmapped (opcode (.ww a v)) a ⟨k, m⟩) := by
    simp [exec, execWw, hword]
  have hframe : t = { s with ram := t.ram } := writeOffsets_frame hmade
  have hnone : t.fault = none := by rw [hframe, hfault]
  refine ⟨_, hexec, ?frame, fun j r i hj hreach hlast => ?stored, fun r i hother => ?kept⟩
  case frame =>
    rw [takeUnmapped_of_fault_none hnone, hframe]
    rfl
  case stored =>
    rw [ramByte_takeUnmapped]
    obtain ⟨earlier, later, rfl⟩ := List.append_of_mem (hbefore j hj)
    obtain ⟨-, -, hlater⟩ := rising_append_cons hrising
    exact ramByte_writeOffsets_append_cons hmade hreach fun p hp =>
      hlast p.1 (hlater p hp) (hbelow p (by simp [hp]))
  case kept =>
    rw [ramByte_takeUnmapped]
    exact ramByte_writeOffsets_other hmade fun p hp => hother p.1 (hbelow p hp)

end Sys2Proof.Machine
end

/-! ## The order of construction in a tree (O56) -/

section
namespace Sys2Proof.Machine

/-- The first child in list order that fails decides, whatever the bindings after it are (R212). -/
theorem bindings_build_of_first_error {p : Params} {before after : List (Int × Desc)} {base : Int} {child : Desc}
    {e : ConfigError} (hbefore : ∀ x ∈ before, ∃ c, x.2.build p = .ok c) (hchild : child.build p = .error e) :
    ∀ {mapping : Bindings}, mapping.toList = before ++ (base, child) :: after → mapping.build p = .error e := by
  induction before with
  | nil =>
    intro mapping hlist
    cases mapping with
    | nil => cases hlist
    | cons base' child' rest =>
      cases hlist
      rw [Bindings.build, hchild]
  | cons x before ih =>
    obtain ⟨⟨c, hc⟩, hrest⟩ := List.forall_mem_cons.mp hbefore
    intro mapping hlist
    cases mapping with
    | nil => cases hlist
    | cons base' child' rest =>
      obtain ⟨rfl, htail⟩ := List.cons.inj hlist
      simp [Bindings.build, hc, ih hrest htail]

/-- Children that are all built are handed on in list order, each with its base (R212). -/
theorem bindings_build_of_children {p : Params} {children : List (Int × Comp)} : ∀ {mapping : Bindings},
    mapping.toList.map (fun x => (x.1, x.2.build p)) = children.map (fun x => (x.1, .ok x.2)) →
      mapping.build p = .ok children := by
  induction children with
  | nil =>
    intro mapping hlist
    cases mapping with
    | nil => rw [Bindings.build]
    | cons base child rest => cases hlist
  | cons y children ih =>
    obtain ⟨base', c⟩ := y
    intro mapping hlist
    cases mapping with
    | nil => cases hlist
    | cons base child rest =>
      obtain ⟨hhead, htail⟩ := List.cons.inj hlist
      obtain ⟨rfl, hchild⟩ := Prod.mk.inj hhead
      exact build_cons_eq_ok.mpr ⟨c, children, hchild, ih htail, rfl⟩

/-- Settles O56: a map's own checks are made on what its bindings are built as. -/
theorem childrenAreBuiltInListOrderBeforeTheirMap : Obligations.ChildrenAreBuiltInListOrderBeforeTheirMap := by
  intro p
  refine ⟨fun id content size order padding => ?rom, fun id size order => ?ram,
    fun order mapping before after base child e hlist hbefore hchild => ?failing,
    fun order mapping children hlist => ?built⟩
  case rom => rw [Desc.build]
  case ram => rw [Desc.build]
  case failing => rw [Desc.build, bindings_build_of_first_error hbefore hchild hlist]
  case built => rw [Desc.build, bindings_build_of_children hlist]

end Sys2Proof.Machine
end

/-! # Reset and runs (70_reset_and_hazards.md) -/

/-! ## A run that ended well (O17) -/

section
namespace Sys2Proof.Machine

/-- A run of `k + 1` steps that reaches a state is a step and then a run of `k` steps. -/
theorem run_succ_eq_next {M : Host.Core} {k : Nat} {s t : M.State} :
    M.run (k + 1) s = .next t ↔ ∃ u, M.step s = .next u ∧ M.run k u = .next t := by
  rw [Host.Core.run]
  cases M.step s <;> simp

/-- A request that leaves `FAULT` unset has answered OK: an error would have set it (R110). -/
theorem exec_answers_ok_of_fault_none {i : Instr} {s t : State} (h : exec i s = .next t) (hfault : t.fault = none) :
    ∃ q : Rsp, q.status = statusOk ∧ t.responses = s.responses ++ [q] := by
  obtain ⟨u, hu, -, ⟨q, hok, -, rfl⟩ | ⟨e, -, -, -, rfl⟩⟩ := exec_cases h
  · exact ⟨q, hok, by rw [hu]; rfl⟩
  · cases hfault

/-- A step that leaves `FAULT` and `REFUSED` unset has run its request, and the request has answered OK (R110). -/
theorem step_answers_ok {s t : State} (h : step s = .next t) (hfault : t.fault = none) (hrefused : t.refused = false) :
    ∃ q : Rsp, q.status = statusOk ∧ t.responses = s.responses ++ [q] := by
  obtain ⟨-, -, w, rest, -, ⟨i, -, hexec⟩ | ⟨e, -, rfl⟩⟩ := step_cases h
  · simpa using exec_answers_ok_of_fault_none hexec hfault
  · cases hrefused

/-- `FAULT` and `REFUSED` unset at the end of a run were unset at its start, since no step starts once one is set
(R110, R210). -/
theorem run_starts_unmarked {k : Nat} {s t : State} (h : Sys2Proof.core.run k s = .next t) (hfault : t.fault = none)
    (hrefused : t.refused = false) : s.fault = none ∧ s.refused = false := by
  cases k with
  | zero => cases h; exact ⟨hfault, hrefused⟩
  | succ k =>
    obtain ⟨u, hstep, -⟩ := run_succ_eq_next.mp h
    obtain ⟨hsfault, hsrefused, -⟩ := step_cases hstep
    exact ⟨hsfault, hsrefused⟩

/-- A run of `k` steps that ends with `FAULT` and `REFUSED` unset has given `k` OK responses after those before it. -/
theorem run_answers_ok {k : Nat} {s t : State} (h : Sys2Proof.core.run k s = .next t) (hfault : t.fault = none)
    (hrefused : t.refused = false) :
    ∃ qs : List Rsp, qs.length = k ∧ (∀ q ∈ qs, q.status = statusOk) ∧ t.responses = s.responses ++ qs := by
  induction k generalizing s with
  | zero => cases h; exact ⟨[], rfl, by simp, by simp⟩
  | succ k ih =>
    obtain ⟨u, hstep, hrun⟩ := run_succ_eq_next.mp h
    obtain ⟨hufault, hurefused⟩ := run_starts_unmarked hrun hfault hrefused
    obtain ⟨q, hq, hfirst⟩ := step_answers_ok hstep hufault hurefused
    obtain ⟨qs, hlen, hqs, hrest⟩ := ih hrun
    exact ⟨q :: qs, by simp [hlen], List.forall_mem_cons.mpr ⟨hq, hqs⟩, by simp [hrest, hfirst]⟩

/-- Settles O17: one step for each request, and each step of a run that ended well has answered OK. -/
theorem runThatEndedWellAnsweredEveryRequest : Obligations.RunThatEndedWellAnsweredEveryRequest := by
  rintro s t hfresh hrun ⟨-, hfault, hrefused⟩
  obtain ⟨qs, hlen, hok, hresponses⟩ := run_answers_ok hrun hfault hrefused
  rw [hresponses, hfresh, List.nil_append]
  exact ⟨hlen, hok⟩

end Sys2Proof.Machine
end

/-! ## The reset state (O55) -/

section
namespace Sys2Proof.Machine

/-- Configuration M2 as it is given to construction (95_test_vectors.md P2). -/
def sampleDesc : Desc :=
  .map .little
    (.cons 0 (.ram 0 (some 4) .big)
      (.cons 8 (.rom 1 (.bytes [0xDE#8, 0xAD#8, 0xBE#8, 0xEF#8]) none .big none)
        .nil))

/-- Configuration M2 is built, children first, as the tree of the reset state. -/
theorem sampleDesc_build : sampleDesc.build { addrW := 16 } = .ok resetRoot := by
  have hram : (Desc.ram 0 (some 4) .big).build { addrW := 16 } = .ok (.ram 0 .big 4) := rfl
  have hrom : (Desc.rom 1 (.bytes [0xDE#8, 0xAD#8, 0xBE#8, 0xEF#8]) none .big none).build { addrW := 16 } =
      .ok (.rom 1 .big [0xDE#8, 0xAD#8, 0xBE#8, 0xEF#8]) := rfl
  have hmap : buildMap .little [(0, .ram 0 .big 4), (8, .rom 1 .big [0xDE#8, 0xAD#8, 0xBE#8, 0xEF#8])] =
      .ok resetRoot := rfl
  exact build_map_eq_ok.mpr
    ⟨_, build_cons_eq_ok.mpr ⟨_, _, hram, build_cons_eq_ok.mpr ⟨_, _, hrom, rfl, rfl⟩, rfl⟩, hmap⟩

/-- Settles O55: the two storage objects are distinct, and the tree's 16 bytes fit the port. -/
theorem resetIsTheConstructionOfTheSampleMap : Obligations.ResetIsTheConstructionOfTheSampleMap := by
  obtain ⟨-, -, -, -, hadmitted⟩ := aliasingIsRefusedFirstAndThePortWidthLast { addrW := 16 } 0 sampleDesc
  have hdistinct : sampleDesc.leafIds.Nodup := by decide
  have hfits : resetRoot.size ≤ 2 ^ 16 := by decide
  exact hadmitted resetRoot hdistinct sampleDesc_build hfits

end Sys2Proof.Machine
end

/-! ## The sample request words (O5) -/

section
namespace Sys2Proof

/-- Settles O5: each word's command code picks the decoder's case, and the operands are the packed fields, so the
operand bits of a reserved code and the data of an `RB` play no part. -/
theorem sampleRequestWordsDecodeAsTheVectorsSay : Obligations.SampleRequestWordsDecodeAsTheVectorsSay := by
  refine ⟨?len, ?rb, ?wb, ?rw, ?ww, ?reserved5, ?reserved5Ones, ?reserved7, ?reserved7Ones, ?wideByte, ?rbWithData⟩
  case len => exact decode_of_op_zero (by decide)
  case rb | rbWithData => exact decode_of_op_one (by decide)
  case wb => exact decode_of_op_two_of_lt (by decide) (by decide)
  case wideByte => exact decode_of_op_two_of_le (by decide) (by decide)
  case rw => exact decode_of_op_three (by decide)
  case ww => exact decode_of_op_four (by decide)
  case reserved5 | reserved5Ones | reserved7 | reserved7Ones => exact decode_of_five_le_op (by decide)

end Sys2Proof
end
